-- ==== Sys2Proof/Word.lean ====
section
/-!
DEFINITION. The word types of the model: bytes, 64-bit words and linear addresses. A physical address
is a `Nat`, since the spec gives it no width (00_scope.md R5, `physAddrWidth`), and so is the number of
a 4096-byte page frame.
-/

namespace Sys2Proof

/-- Eight bits, the unit of memory (20_memory.md R40). -/
abbrev Byte := BitVec 8

/-- A 64-bit word: a general register, or one 8-byte field of a structure in memory. -/
abbrev Word := BitVec 64

/-- A linear address (20_memory.md R40). In `Mode32` it is below `2^32` and held zero-extended. -/
abbrev LinAddr := BitVec 64

end Sys2Proof
end

