-- ==== Sys2Proof/Machine/Flags.lean ====
section
/-!
DEFINITION. The flags. The leaf has no flag computation: "Flags Affected: None." (10_state.md R13)
-/

namespace Sys2Proof.Machine

/-- The flags after the leaf: as they were (10_state.md R13). -/
def flagsAfterEaug (flags : Word) : Word := flags

end Sys2Proof.Machine
end

