-- ==== Sys2Proof/Config.lean ====
section
/-!
DEFINITION. The parameters of 00_scope.md R5: what varies between processors and operating states
and is fixed while the leaf runs. The parameters the leaf branches on are plain data in
`Config`, which State carries so that every claim quantifies over them; the three that only name a
value (`pfErrorCode`, `SGX_CONFLICT`, `EPC_PAGE_CONFLICT_EXCEPTION`) are opaque constants.
-/

namespace Sys2Proof

/-- The operating mode (R5 `mode`): 64-bit mode or 32-bit protected mode. -/
inductive Mode where
  | mode64
  | mode32
deriving DecidableEq, Repr

/-- The access kinds passed to the translation (20_memory.md R43). -/
inductive AccessKind where
  | read
  | write
  | readwrite
deriving DecidableEq, Repr

/-- The page types (10_state.md R26). The source names `secs`, `reg`, `ssFirst` and `ssRest`; the
other three are the rule's own list of the remaining values. -/
inductive PageType where
  | secs
  | tcs
  | reg
  | va
  | trim
  | ssFirst
  | ssRest
deriving DecidableEq, Repr

/-- The eight places where the leaf raises a page fault (60_exceptions.md R112). -/
inductive PfSite where
  | targetTranslate
  | targetNotEpc
  | pageinfoTranslate
  | secsTranslate
  | secsNotEpc
  | targetValid
  | secinfoTranslate
  | secsInvalid
deriving DecidableEq, Repr

/-- The three CPUID bits of 10_state.md R17. -/
structure Cpuid where
  /-- The feature flag SGX2. -/
  sgx2 : Bool
  /-- CPUID.(EAX=12H, ECX=1):EAX[6]. -/
  leaf12Eax6 : Bool
  /-- CPUID.(EAX=07H, ECX=0H):ECX[CET_SS]. -/
  cetSs : Bool
deriving DecidableEq, Repr

/-- `count` consecutive page frames of the EPC, starting at frame number `first` (10_state.md R20). -/
structure EpcRegion where
  first : Nat
  count : Nat
deriving DecidableEq, Repr

/-- An interval of 64-bit numbers, both ends included. A list of them is a predicate on addresses. -/
structure AddrRange where
  lo : Nat
  hi : Nat
deriving DecidableEq, Repr

/-- One line of the translation (20_memory.md R43): the `size` linear addresses from `base` on go to
the physical addresses from `phys` on, for the access kinds whose bit is set. With `size = 1` a list
of lines can say any function of linear address and access kind. -/
structure TransEntry where
  base : Nat
  size : Nat
  phys : Nat
  read : Bool
  write : Bool
  readwrite : Bool
deriving DecidableEq, Repr

/-- Byte offsets, bit positions and page-type numbers of PAGEINFO and SECINFO (R5 `layout`,
10_state.md R24 to R26). Bit positions count in the 512-bit SECINFO, whose lowest-addressed byte is
bits 7:0. -/
structure Layout where
  offLinaddr : Nat
  offSrcpge : Nat
  offSecinfo : Nat
  offSecs : Nat
  bitR : Nat
  bitW : Nat
  bitX : Nat
  /-- Lowest bit and width of `FLAGS.PT`. -/
  ptLow : Nat
  ptWidth : Nat
  /-- The `PENDING`, `MODIFIED` and `PR` bits (40_eaug.md R84). -/
  stateMask : BitVec 512
  /-- The "reserved fields" (40_eaug.md R84). -/
  reservedMask : BitVec 512
  /-- The number of each page type; a number that is not listed names no type. -/
  ptCodes : List (Nat × PageType)
deriving DecidableEq, Repr

/-- The parameters of R5 that the leaf uses, and the three further conditions on the processor that
its availability asks for (30_encoding.md R65; notes/assumptions/21.md). -/
structure Config where
  mode : Mode
  cpuid : Cpuid
  /-- SGX is enabled (30_encoding.md R65, D4). -/
  sgxEnabled : Bool
  /-- The processor is in protected mode, of which 64-bit mode is a form here: not in real-address or
  virtual-8086 mode (R65, D4). Where it is not, `mode` says nothing and the leaf is refused. -/
  protectedMode : Bool
  /-- The processor is executing outside any enclave (60_exceptions.md R123; N25, D4). -/
  outsideEnclave : Bool
  /-- The enclave page cache (10_state.md R20). -/
  epc : List EpcRegion
  /-- Paging (20_memory.md R43); an address no line covers faults. -/
  translation : List TransEntry
  /-- The canonical 64-bit addresses (20_memory.md R41). -/
  canonicalRanges : List AddrRange
  layout : Layout
  /-- The length of `ENCLS` in bytes (10_state.md R12, D2). -/
  enclsLength : Nat
deriving DecidableEq, Repr

/-- The page-fault error code of each fault site (60_exceptions.md R112, D9): open, so no value of it
can be proved. -/
opaque Config.pfErrorCode : PfSite → BitVec 32

/-- The symbolic constant `SGX_CONFLICT` (60_exceptions.md R114, D21): open. -/
opaque Config.sgxConflict : Nat

/-- The symbolic constant `EPC_PAGE_CONFLICT_EXCEPTION` (60_exceptions.md R114, D21): open. -/
opaque Config.epcPageConflictException : Nat

end Sys2Proof
end

