-- ==== Sys2Proof/Syntax.lean ====
section
/-!
DEFINITION. The instructions: one constructor per row of spec/opcode_table.json, which has one row.
-/

namespace Sys2Proof

/-- The opcode table's one row (30_encoding.md R64). All three operands are implicit registers, so
the instruction has no field (R62, R63). -/
inductive Instr where
  /-- `ENCLS[EAUG]`: bytes `0F 01 CF`, executed with `EAX = 0DH`. -/
  | enclsEaug
deriving DecidableEq, Repr

end Sys2Proof
end

