-- ==== Sys2Proof/Decode.lean ====
section
/-!
DEFINITION. The decoder, total on any bytes, and the encoder (30_encoding.md R60 to R66).
-/

namespace Sys2Proof

/-- What a run of bytes decodes to. -/
inductive Decoded where
  /-- An instruction of the table, and the bytes after it. -/
  | instr (i : Instr) (rest : List Byte)
  /-- The bytes of R61 behind one or more prefixes (R66). -/
  | prefixedForm
  /-- Anything else: no instruction of this spec. -/
  | otherBytes
deriving DecidableEq, Repr

/-- The three bytes of `ENCLS` (30_encoding.md R61). PRESUMED: general knowledge, G1
(notes/assumptions/1.md). -/
def enclsBytes : List Byte := [0x0F#8, 0x01#8, 0xCF#8]

/-- The bytes of an instruction, the first at the lowest address (30_encoding.md R61). -/
def encode : Instr → List Byte
  | .enclsEaug => enclsBytes

/-- The instruction that stands at the front of the bytes, with no prefix before it. -/
def decodeBare : List Byte → Option (Instr × List Byte)
  | b0 :: b1 :: b2 :: rest =>
    if b0 = 0x0F#8 ∧ b1 = 0x01#8 ∧ b2 = 0xCF#8 then some (.enclsEaug, rest) else none
  | _ => none

/-- The prefixes R66 names: operand size, address size, segment override, `LOCK`, `REP` and, in
64-bit mode, `REX`. PRESUMED: their byte values are the Intel 64 family's; the spec gives none
(notes/assumptions/10.md). -/
def isPrefix (m : Mode) (b : Byte) : Bool :=
  [0x66#8, 0x67#8, 0x26#8, 0x2E#8, 0x36#8, 0x3E#8, 0x64#8, 0x65#8, 0xF0#8, 0xF2#8, 0xF3#8].contains b
    || (m == .mode64 && b >>> 4 == 0x4#8)

/-- The decoder: the bare three bytes are the instruction, the same bytes behind prefixes are a
prefixed form, and nothing else is an instruction of this spec (30_encoding.md R66). -/
def decode (m : Mode) : List Byte → Decoded
  | [] => .otherBytes
  | b :: bs =>
    match decodeBare (b :: bs) with
    | some (i, rest) => .instr i rest
    | none =>
      if isPrefix m b then
        match decode m bs with
        | .otherBytes => .otherBytes
        | _ => .prefixedForm
      else .otherBytes

/-- The `k` low bytes of `w`, most significant first. -/
def bytesOfWord (w : Nat) : Nat → List Byte
  | 0 => []
  | k + 1 => BitVec.ofNat 8 (w / 256 ^ k) :: bytesOfWord w k

/-- The bytes in memory of an instruction numbered as the opcode table numbers it: the table's row
takes its three bytes as ONE word whose first byte in memory is the most significant (30_encoding.md
R64), so the word is laid out in that order; zeros follow up to the longest instruction. -/
def tableBytes (nbits w : Nat) : List Byte :=
  bytesOfWord w (nbits / 8) ++ List.replicate (3 - nbits / 8) 0#8

/-- The instruction the decoder reads from a word of the opcode table. -/
def decodeTableWord (nbits w : Nat) : Option Instr :=
  match decode .mode64 (tableBytes nbits w) with
  | .instr i _ => some i
  | _ => none

end Sys2Proof
end

