-- ==== Sys2Proof/Machine/Defaults.lean ====
section
/-!
DEFINITION. The values of the parameters of 00_scope.md R5 that the spec supplies from general
knowledge (93_implementation_defined.md G1 to G5, G13), and the configuration that State.reset
carries. No claim rests on a particular one of them.
-/

namespace Sys2Proof.Machine

/-- The length of `ENCLS` in bytes (10_state.md R12). PRESUMED: general knowledge, G1
(notes/assumptions/1.md). -/
def defaultEnclsLength : Nat := 3

/-- The leaf number that selects EAUG (30_encoding.md R60). -/
def eaugLeaf : BitVec 32 := 0x0D#32

/-- The layout of 10_state.md R24 to R26. PRESUMED: general knowledge, G3 to G5
(notes/assumptions/1.md). -/
def defaultLayout : Layout where
  offLinaddr := 0
  offSrcpge := 8
  offSecinfo := 16
  offSecs := 24
  bitR := 0
  bitW := 1
  bitX := 2
  ptLow := 8
  ptWidth := 8
  stateMask := 0x38#512
  reservedMask := BitVec.allOnes 512 ^^^ 0xFF3F#512
  ptCodes := [(0, .secs), (1, .tcs), (2, .reg), (3, .va), (4, .trim), (5, .ssFirst), (6, .ssRest)]

/-- The addresses whose bits 63:47 are all equal. PRESUMED: general knowledge, G13, with 48
implemented linear-address bits (notes/assumptions/15.md). -/
def defaultCanonicalRanges : List AddrRange :=
  [⟨0, 2 ^ 47 - 1⟩, ⟨2 ^ 64 - 2 ^ 47, 2 ^ 64 - 1⟩]

/-- The configuration of State.reset. DESIGN CHOICE: the spec fixes none of it; a 64-bit processor
with every feature the leaf names, SGX enabled, outside any enclave, no EPC and no page mapped (notes/assumptions/4.md). -/
def resetConfig : Config where
  mode := .mode64
  cpuid := { sgx2 := true, leaf12Eax6 := true, cetSs := true }
  sgxEnabled := true
  protectedMode := true
  outsideEnclave := true
  epc := []
  translation := []
  canonicalRanges := defaultCanonicalRanges
  layout := defaultLayout
  enclsLength := defaultEnclsLength

end Sys2Proof.Machine
end

