-- ==== Sys2Proof/Machine/Table.lean ====
section
/-!
DEFINITION. Sparse data by number: a list of (key, value) pairs in one canonical form, used for
memory, the EPCM, the SECS records and the locks. An unlisted key reads as the table's default.
-/

namespace Sys2Proof.Machine

/-- A sparse table keyed by numbers. -/
abbrev Table (α : Type) := List (Nat × α)

/-- The value at a key: the first pair listed for it, or the default. -/
def Table.get {α : Type} (d : α) : Table α → Nat → α
  | [], _ => d
  | (k, v) :: m, a => if a = k then v else Table.get d m a

/-- Writes a value, keeping the keys rising; writing the default removes the pair. -/
def Table.set {α : Type} [DecidableEq α] (d : α) : Table α → Nat → α → Table α
  | [], a, v => if v = d then [] else [(a, v)]
  | (k, w) :: m, a, v =>
    if a < k then (if v = d then (k, w) :: m else (a, v) :: (k, w) :: m)
    else if a = k then (if v = d then m else (a, v) :: m)
    else (k, w) :: Table.set d m a v

/-- Writes the default to the `n` keys from `a` on. -/
def Table.clear {α : Type} (m : Table α) (a n : Nat) : Table α :=
  m.filter fun c => !(decide (a ≤ c.1) && decide (c.1 < a + n))

/-- The canonical form: keys strictly rising, and no pair holds the default. -/
def Table.wf {α : Type} [DecidableEq α] (d : α) : Table α → Bool
  | [] => true
  | (k, v) :: m => decide (v ≠ d) && m.all (fun c => decide (k < c.1)) && Table.wf d m

/-- Memory: bytes keyed by physical address (10_state.md R20, R23). -/
abbrev Memory := List Host.Cell

/-- What an unlisted byte of memory reads as. DESIGN CHOICE: the spec gives memory no contents
(10_state.md R33); zero, so that a memory of any contents is a list (notes/assumptions/11.md). -/
def unlistedByte : Byte := 0#8

/-- The canonical form of memory. -/
def Memory.wf (m : Memory) : Bool := Table.wf unlistedByte m

/-- One byte of memory. -/
def readByte (m : Memory) (a : Nat) : Byte := Table.get unlistedByte m a

/-- Writes one byte of memory. -/
def writeByte (m : Memory) (a : Nat) (b : Byte) : Memory := Table.set unlistedByte m a b

/-- The `n` bytes from `a` on as one number, the byte at the lowest address least significant
(20_memory.md R44, R45). -/
def readNat (m : Memory) (a : Nat) : Nat → Nat
  | 0 => 0
  | n + 1 => (readByte m a).toNat + 256 * readNat m (a + 1) n

/-- Stores the `n` low bytes of a number from `a` on, the least significant at the lowest address
(20_memory.md R44, R45). -/
def writeNat (m : Memory) (a : Nat) : Nat → Nat → Memory
  | 0, _ => m
  | n + 1, v => writeNat (writeByte m a (BitVec.ofNat 8 v)) (a + 1) n (v / 256)

/-- The `n` bytes from `a` on, in order. -/
def readBytes (m : Memory) (a : Nat) : Nat → List Byte
  | 0 => []
  | n + 1 => readByte m a :: readBytes m (a + 1) n

/-- Stores a list of bytes from `a` on. -/
def writeBytes (m : Memory) (a : Nat) : List Byte → Memory
  | [] => m
  | b :: bs => writeBytes (writeByte m a b) (a + 1) bs

/-- Fills the `n` bytes from `a` on with zero (40_eaug.md R92). An unlisted byte reads as zero, so
the listed pairs of the range are dropped. -/
def fillZero (m : Memory) (a : Nat) (n : Nat) : Memory := Table.clear m a n

end Sys2Proof.Machine
end

