-- ==== Sys2Proof/Machine/State.lean ====
section
/-!
DEFINITION. The machine's state (10_state.md R10 to R33) as plain data, the reasons a step can stop,
and the state after reset.
-/

namespace Sys2Proof.Machine

/-- The DS segment (10_state.md R15); both fields are used in `Mode32` only. PRESUMED: 32 bits each
(notes/assumptions/14.md). -/
structure Segment where
  base : BitVec 32
  limit : BitVec 32
deriving DecidableEq, Repr

/-- The five VMCS fields the VM-exit branch writes (10_state.md R19). The source gives the first
three no width. -/
structure Vmcs where
  exitReason : Nat
  qualificationCode : Nat
  qualificationError : Nat
  guestPhysicalAddress : Nat
  guestLinearAddress : LinAddr
deriving DecidableEq, Repr

/-- An EPCM entry: the eleven fields of 10_state.md R21. -/
structure EpcmEntry where
  valid : Bool
  r : Bool
  w : Bool
  x : Bool
  pt : PageType
  enclaveAddress : Word
  blocked : Bool
  pending : Bool
  modified : Bool
  pr : Bool
  /-- The SECS identifier: the physical address of the SECS's EPC page (D27). -/
  enclaveSecs : Nat
deriving DecidableEq, Repr

/-- What the leaf reads of an SECS (10_state.md R22), kept as abstract fields (R27, D16). -/
structure Secs where
  baseaddr : Word
  size : Word
  mode64bit : Bool
  initialized : Bool
deriving DecidableEq, Repr

/-- What the other logical processors hold on an EPC page (10_state.md R28). -/
inductive Lock where
  | free
  | shared
  | exclusive
deriving DecidableEq, Repr

/-- The entry an unlisted EPC page has. DESIGN CHOICE: all fields zero, since 10_state.md R33 gives none
(notes/assumptions/12.md). -/
def unlistedEpcm : EpcmEntry where
  valid := false
  r := false
  w := false
  x := false
  pt := .secs
  enclaveAddress := 0#64
  blocked := false
  pending := false
  modified := false
  pr := false
  enclaveSecs := 0

/-- The record an unlisted SECS page has. DESIGN CHOICE: all fields zero (notes/assumptions/12.md). -/
def unlistedSecs : Secs where
  baseaddr := 0#64
  size := 0#64
  mode64bit := false
  initialized := false

/-- The lock an unlisted EPC page has: held by nobody (10_state.md R28, R33; notes/assumptions/12.md). -/
def unlistedLock : Lock := .free

/-- The machine's state. -/
structure State where
  /-- The parameters of 00_scope.md R5; no step changes them (notes/assumptions/4.md). -/
  cfg : Config
  /-- The register whose low half is `EAX` (10_state.md R10). -/
  rax : Word
  /-- `RBX` (R10). -/
  rbx : Word
  /-- `RCX` (R10). -/
  rcx : Word
  /-- The other general registers, whose number the spec does not give (R11). PRESUMED: 64 bits each
  (notes/assumptions/14.md). -/
  otherRegs : List Word
  /-- The instruction pointer (R12), below `2^AW`. -/
  pc : Word
  /-- The flags, whatever they are (R13). PRESUMED: 64 bits (notes/assumptions/14.md). -/
  flags : Word
  /-- The current privilege level (R14). PRESUMED: 2 bits, general knowledge G8. -/
  cpl : BitVec 2
  /-- The DS segment (R15). -/
  ds : Segment
  /-- `CR4.CET` (R16). -/
  cr4Cet : Bool
  /-- VMX non-root operation (R18). -/
  vmxNonRoot : Bool
  /-- `ENABLE_EPC_VIRTUALIZATION_EXTENSIONS` (R18). -/
  epcVirtExt : Bool
  /-- The VMCS exit fields (R19). -/
  vmcs : Vmcs
  /-- Physical memory: ordinary memory and the contents of EPC pages (R20, R23). -/
  mem : Memory
  /-- One EPCM entry per EPC page, by frame number (R21). -/
  epcm : Table EpcmEntry
  /-- The SECS records, by frame number (R22). -/
  secs : Table Secs
  /-- The lock state of the EPC pages, by frame number (R28). -/
  locks : Table Lock
  /-- The model's own: the bytes the environment hands to the processor, by instruction address
  (notes/assumptions/8.md). -/
  code : Memory
  /-- The model's own: a VM exit has been delivered, and the model has no step after it (R114;
  notes/assumptions/7.md). -/
  vmExited : Bool
deriving DecidableEq, Repr

/-- Why the machine stops with an exception. Both are the spec's terminal `Fault` outcomes
(60_exceptions.md R119): the state is the state before the leaf, and what delivery does is not in
the source. Safe: the hardware goes on in a handler the model says nothing of. -/
inductive Fault where
  /-- `#GP(0)`, error code 0 (R110). Raised by the leaf's checks. Safe. -/
  | gp0
  /-- `#PF` with the faulting linear address and the error code (R112). Raised by the leaf's checks.
  Safe. -/
  | pf (la : LinAddr) (errorCode : BitVec 32)
deriving DecidableEq, Repr

/-- Why the machine refuses a state: the spec gives the situation no meaning (10_state.md R31,
93_implementation_defined.md section 2). Every one is safe. -/
inductive Refusal where
  /-- No meaning written yet. Raised by `exec`'s arms only. Safe. -/
  | notModelled (mnemonic : String)
  /-- `EAX` is not `0DH` (30_encoding.md R66). Raised by the leaf. Safe. -/
  | otherLeaf
  /-- The leaf is not available: `cpuid.SGX2 = 0`, SGX not enabled, outside protected mode, or inside
  an enclave (30_encoding.md R65, D4). Raised by the leaf. Safe. -/
  | featureAbsent
  /-- `ENCLS` behind a prefix (30_encoding.md R66). Raised by `step`. Safe. -/
  | prefixedForm
  /-- `pc + enclsLength` passes the top of the address space (10_state.md R12). Raised by the leaf.
  Safe. -/
  | pcWrap
  /-- PAGEINFO lies in the EPC (40_eaug.md R76). Raised by the leaf. Safe. -/
  | pageinfoInEpc
  /-- SECINFO lies in the EPC (40_eaug.md R84). Raised by the leaf. Safe. -/
  | secinfoInEpc
  /-- A pointer of PAGEINFO is wider than 32 bits in `Mode32` (40_eaug.md R76). Raised by the leaf.
  Safe. -/
  | widePointer
  /-- A SECINFO that passes every sourced test has `PENDING`, `MODIFIED` or `PR` set (40_eaug.md R84).
  Raised by the leaf. Safe. -/
  | secinfoStateBits
  /-- The target page is the SECS page (40_eaug.md R87). Raised by the leaf. Safe. -/
  | targetIsSecs
  /-- `BASEADDR + SIZE` does not fit in 64 bits (40_eaug.md R90). Raised by the leaf. Safe. -/
  | rangeOverflow
  /-- `LINADDR + 0x1000` does not fit in 64 bits and a token is due (40_eaug.md R93). Raised by the
  leaf. Safe. -/
  | tokenOverflow
  /-- The bytes at the instruction pointer are no instruction of this spec (00_scope.md R4). Raised
  by `step`. Safe. -/
  | otherInstruction
  /-- A VM exit was delivered, and the model has no step after it (60_exceptions.md R114). Raised by
  `step`. Safe. -/
  | afterVmExit
deriving DecidableEq, Repr

/-- The three outcomes of a step over this machine. -/
abbrev Outcome := Host.Outcome State Fault Refusal

/-- The machine right after reset. The spec states no reset value for anything (10_state.md R33), so
every value here is the model's: the family's after power-up where it has one, else zero
(notes/assumptions/2.md, 3.md). -/
def State.reset : State where
  cfg := resetConfig
  rax := 0#64
  rbx := 0#64
  rcx := 0#64
  otherRegs := []
  pc := 0xFFF0#64
  flags := 0x2#64
  cpl := 0#2
  ds := { base := 0#32, limit := 0xFFFF#32 }
  cr4Cet := false
  vmxNonRoot := false
  epcVirtExt := false
  vmcs :=
    { exitReason := 0, qualificationCode := 0, qualificationError := 0,
      guestPhysicalAddress := 0, guestLinearAddress := 0#64 }
  mem := []
  epcm := []
  secs := []
  locks := []
  code := []
  vmExited := false

end Sys2Proof.Machine
end

