-- ==== Sys2Proof/Machine/Ops.lean ====
section
/-!
DEFINITION. The named operations over registers, EPC structures and memory, and the ways a leaf can
end other than by success.
-/

namespace Sys2Proof.Machine

/-! ### Registers -/

/-- The address width `AW` (00_scope.md R5). -/
def addressWidth : Mode → Nat
  | .mode64 => 64
  | .mode32 => 32

/-- `EAX`: the low half of the register that contains it (10_state.md R10). -/
def State.eax (s : State) : BitVec 32 := s.rax.setWidth 32

/-- Writes `EAX`, leaving the upper half of the register. -/
def State.setEax (s : State) (v : BitVec 32) : State :=
  { s with rax := (s.rax &&& 0xFFFFFFFF00000000#64) ||| v.setWidth 64 }

/-- The effective address in a register: all of it in `Mode64`, its low 32 bits in `Mode32`
(10_state.md R10, D6). -/
def effectiveAddress (m : Mode) (r : Word) : Word :=
  match m with
  | .mode64 => r
  | .mode32 => (r.setWidth 32).setWidth 64

/-- The instruction pointer past `ENCLS` (10_state.md R12). -/
def nextPc (c : Config) (pc : Word) : Word := pc + BitVec.ofNat 64 c.enclsLength

/-- The leaf exists: the processor has SGX2 with SGX enabled, is in protected or 64-bit mode and
outside any enclave (30_encoding.md R65, 60_exceptions.md R123, D4). -/
def leafAvailable (c : Config) : Bool :=
  c.cpuid.sgx2 && c.sgxEnabled && c.protectedMode && c.outsideEnclave

/-! ### The EPC and what is kept of each of its pages -/

/-- The page frame of a physical address. -/
def frameOf (p : Nat) : Nat := p / 4096

/-- The frame of the address is in the EPC (10_state.md R20). -/
def inEpc (c : Config) (p : Nat) : Bool :=
  c.epc.any fun r => decide (r.first ≤ frameOf p) && decide (frameOf p < r.first + r.count)

/-- The EPCM entry of the EPC page at a physical address (10_state.md R21). -/
def State.epcmAt (s : State) (p : Nat) : EpcmEntry := Table.get unlistedEpcm s.epcm (frameOf p)

/-- Writes the EPCM entry of the EPC page at a physical address. -/
def setEpcm (epcm : Table EpcmEntry) (p : Nat) (e : EpcmEntry) : Table EpcmEntry :=
  Table.set unlistedEpcm epcm (frameOf p) e

/-- The SECS held in the EPC page at a physical address (10_state.md R22). -/
def State.secsAt (s : State) (p : Nat) : Secs := Table.get unlistedSecs s.secs (frameOf p)

/-- What other logical processors hold on the EPC page at a physical address (10_state.md R28). -/
def State.lockAt (s : State) (p : Nat) : Lock := Table.get unlistedLock s.locks (frameOf p)

/-! ### Memory -/

/-- One byte of physical memory. -/
def State.byteAt (s : State) (a : Nat) : Byte := readByte s.mem a

/-- `MemRead` of 8 bytes at a physical address (20_memory.md R44, R45). -/
def State.read64 (s : State) (a : Nat) : Word := BitVec.ofNat 64 (readNat s.mem a 8)

/-- `MemRead` of 64 bytes at a physical address (20_memory.md R44, R48). -/
def State.read512 (s : State) (a : Nat) : BitVec 512 := BitVec.ofNat 512 (readNat s.mem a 64)

/-- `MemWrite` of 8 bytes at a physical address (20_memory.md R44, R45). -/
def write64 (m : Memory) (a : Nat) (v : Word) : Memory := writeNat m a 8 v.toNat

/-- `MemWrite` of a whole page of zeros (40_eaug.md R92). -/
def zeroPage (m : Memory) (p : Nat) : Memory := fillZero m p 4096

/-! ### Ending the leaf before its writes -/

/-- An end of the leaf other than success (10_state.md R31). -/
inductive Stop where
  | fault (f : Fault)
  | vmExit (guestPhysical : Nat) (guestLinear : LinAddr)
  | refuse (r : Refusal)
deriving DecidableEq, Repr

/-- `raise GP(0)` (60_exceptions.md R110). -/
def raiseGp : Stop := .fault .gp0

/-- `raise PF(la)` at a fault site (60_exceptions.md R112). -/
def raisePf (site : PfSite) (la : LinAddr) : Stop := .fault (.pf la (Config.pfErrorCode site))

/-- The five VMCS writes of the `SGX_CONFLICT` VM exit (60_exceptions.md R114). What "Deliver VMEXIT"
does after them is not in the source; the model marks that it has no further step. -/
def State.deliverVmExit (s : State) (guestPhysical : Nat) (guestLinear : LinAddr) : State :=
  { s with
    vmcs :=
      { exitReason := Config.sgxConflict
        qualificationCode := Config.epcPageConflictException
        qualificationError := 0
        guestPhysicalAddress := guestPhysical
        guestLinearAddress := guestLinear }
    vmExited := true }

/-- TAKING AN EXCEPTION, the one shared operation: the outcome of a leaf that stops. A fault is the
spec's terminal outcome, with the state before the leaf (60_exceptions.md R118, R119); a VM exit has
its five writes (R114). The source has no return from either (R120), so there is none beside it. -/
def Stop.outcome (s : State) : Stop → Outcome
  | .fault f => .fault f
  | .vmExit gpa gla => .next (s.deliverVmExit gpa gla)
  | .refuse r => .refused r

/-- Stops when the condition holds. -/
def stopIf (c : Prop) [Decidable c] (x : Stop) : Except Stop Unit :=
  if c then .error x else .ok ()

/-- The value, or the stop where there is none. -/
def orStop {α : Type} (o : Option α) (x : Stop) : Except Stop α :=
  match o with
  | some a => .ok a
  | none => .error x

/-! ### Fetching -/

/-- How many bytes are handed to the decoder. PRESUMED: the family's longest instruction
(notes/assumptions/8.md). -/
def fetchLength : Nat := 15

/-- The bytes at the instruction pointer. DESIGN CHOICE: from `State.code` (notes/assumptions/8.md). -/
def State.fetch (s : State) : List Byte := readBytes s.code s.pc.toNat fetchLength

/-- Places an instruction of the opcode table at the instruction pointer, and selects its leaf: the
row of EAUG is its bytes together with `EAX = 0DH` (30_encoding.md R64). -/
def State.placeInstruction (s : State) (nbits w : Nat) : State :=
  let placed := { s with code := writeBytes s.code s.pc.toNat (tableBytes nbits w) }
  match decodeTableWord nbits w with
  | some .enclsEaug => placed.setEax eaugLeaf
  | none => placed

end Sys2Proof.Machine
end

