-- ==== Sys2Proof/Machine/Operands.lean ====
section
/-!
DEFINITION. The operand forms of the leaf: addresses in DS and their translation (20_memory.md R40
to R46), the fields of PAGEINFO (10_state.md R24) and the SECINFO (R25).
-/

namespace Sys2Proof.Machine

/-! ### Addresses -/

/-- The address is in canonical form (20_memory.md R41; the predicate is a parameter). -/
def canonical (c : Config) (a : Word) : Bool :=
  c.canonicalRanges.any fun r => decide (r.lo ≤ a.toNat) && decide (a.toNat ≤ r.hi)

/-- `lin(ea, n)`: the linear address of the `n`-byte operand at effective address `ea` in DS, or
`none` where the rule raises `#GP(0)` (20_memory.md R41). -/
def lin (s : State) (ea : Word) (n : Nat) : Option LinAddr :=
  match s.cfg.mode with
  | .mode64 => if canonical s.cfg ea then some ea else none
  | .mode32 =>
    if s.ds.limit.toNat < ea.toNat + n - 1 then none
    else some ((s.ds.base + ea.setWidth 32).setWidth 64)

/-- A line of the translation serves an access kind. -/
def TransEntry.permits (e : TransEntry) : AccessKind → Bool
  | .read => e.read
  | .write => e.write
  | .readwrite => e.readwrite

/-- A line of the translation covers a linear address. -/
def TransEntry.covers (e : TransEntry) (la : LinAddr) : Bool :=
  decide (e.base ≤ la.toNat) && decide (la.toNat < e.base + e.size)

/-- `translate(la, kind)`: the physical address, or `none` for a page fault (20_memory.md R43). The
first line that covers the address and serves the kind decides. -/
def translate (c : Config) (la : LinAddr) (k : AccessKind) : Option Nat :=
  (c.translation.find? fun e => TransEntry.covers e la && TransEntry.permits e k).map
    fun e => e.phys + (la.toNat - e.base)

/-- The address is a multiple of the alignment (00_scope.md R6, 20_memory.md R46). -/
def aligned (a : Word) (n : Nat) : Bool := a.toNat % n == 0

/-! ### PAGEINFO -/

/-- A PAGEINFO's fields, read from the physical address the PAGEINFO resolved to (10_state.md R24). -/
structure Pageinfo where
  linaddr : Word
  srcpge : Word
  secinfo : Word
  secs : Word
deriving DecidableEq, Repr

/-- The PAGEINFO at a physical address; each field is read once (20_memory.md R48, R52). -/
def pageinfoAt (s : State) (p : Nat) : Pageinfo where
  linaddr := s.read64 (p + s.cfg.layout.offLinaddr)
  srcpge := s.read64 (p + s.cfg.layout.offSrcpge)
  secinfo := s.read64 (p + s.cfg.layout.offSecinfo)
  secs := s.read64 (p + s.cfg.layout.offSecs)

/-- In `Mode32` a pointer field has a nonzero upper half (20_memory.md R42). -/
def widePointer (m : Mode) (ptr : Word) : Bool := m == .mode32 && decide (2 ^ 32 ≤ ptr.toNat)

/-! ### SECINFO -/

/-- A SECINFO taken apart by the layout (10_state.md R25). -/
structure Secinfo where
  r : Bool
  w : Bool
  x : Bool
  /-- The page type, or `none` for a number that names no type. -/
  pt : Option PageType
  reservedNonzero : Bool
  stateNonzero : Bool
deriving DecidableEq, Repr

/-- The page type with a number (10_state.md R26). -/
def pageTypeOf (l : Layout) (code : Nat) : Option PageType :=
  (l.ptCodes.find? fun c => c.1 == code).map (·.2)

/-- Takes the 512 bits of a SECINFO apart (10_state.md R25, 40_eaug.md R84). -/
def parseSecinfo (l : Layout) (v : BitVec 512) : Secinfo where
  r := v.getLsbD l.bitR
  w := v.getLsbD l.bitW
  x := v.getLsbD l.bitX
  pt := pageTypeOf l ((v >>> l.ptLow).toNat % 2 ^ l.ptWidth)
  reservedNonzero := v &&& l.reservedMask != 0#512
  stateNonzero := v &&& l.stateMask != 0#512

/-- The SECINFO at a physical address, copied whole (20_memory.md R48). -/
def secinfoAt (s : State) (p : Nat) : Secinfo := parseSecinfo s.cfg.layout (s.read512 p)

/-- The security attributes a page is given: permissions and type (00_scope.md section 6). -/
structure SecAttrs where
  r : Bool
  w : Bool
  x : Bool
  pt : PageType
deriving DecidableEq, Repr

/-- The attributes of a page added without a SECINFO (40_eaug.md R83). -/
def defaultAttrs : SecAttrs where
  r := true
  w := true
  x := false
  pt := .reg

/-- A shadow-stack page type (00_scope.md section 6, "SS page"). -/
def isShadowStack (pt : PageType) : Bool := pt == .ssFirst || pt == .ssRest

end Sys2Proof.Machine
end

