-- ==== Sys2Proof/Machine/Eaug.lean ====
section
/-!
DEFINITION. The meaning of `ENCLS[EAUG]` (40_eaug.md R70 to R99): one check per statement of the
Operation section, in its order, then the writes.
-/

namespace Sys2Proof.Machine

/-! ### Admission and privilege -/

/-- The admission tests (40_eaug.md R72 and section 7): the leaf number, the leaf's availability, and
room for the next instruction (10_state.md R12). -/
def checkAdmission (s : State) : Except Stop Unit := do
  stopIf (s.eax ≠ eaugLeaf) (.refuse .otherLeaf)
  stopIf (leafAvailable s.cfg = false) (.refuse .featureAbsent)
  stopIf (2 ^ addressWidth s.cfg.mode ≤ s.pc.toNat + s.cfg.enclsLength) (.refuse .pcWrap)

/-- The privilege check (40_eaug.md R71). -/
def checkPrivilege (s : State) : Except Stop Unit := stopIf (s.cpl ≠ 0#2) raiseGp

/-! ### Operand checks -/

/-- An operand's linear address, in DS and aligned to `align`, else `#GP(0)` (20_memory.md R41, R46). -/
def alignedOperand (s : State) (ea : Word) (size align : Nat) : Except Stop LinAddr := do
  let la ← orStop (lin s ea size) raiseGp
  stopIf (aligned la align = false) raiseGp
  return la

/-- The PAGEINFO's linear address (40_eaug.md R73). -/
def pageinfoOperand (s : State) : Except Stop LinAddr :=
  alignedOperand s (effectiveAddress s.cfg.mode s.rbx) 32 32

/-- The target page's linear address (40_eaug.md R74). -/
def targetOperand (s : State) : Except Stop LinAddr :=
  alignedOperand s (effectiveAddress s.cfg.mode s.rcx) 4096 4096

/-- An operand that must resolve within the EPC (40_eaug.md R75, R80). -/
def resolveInEpc (c : Config) (la : LinAddr) (k : AccessKind) (untranslated outside : PfSite) :
    Except Stop Nat := do
  let p ← orStop (translate c la k) (raisePf untranslated la)
  stopIf (inEpc c p = false) (raisePf outside la)
  return p

/-- An operand that must resolve to ordinary memory (40_eaug.md R76, R84). -/
def resolveOrdinary (c : Config) (la : LinAddr) (untranslated : PfSite) (r : Refusal) :
    Except Stop Nat := do
  let p ← orStop (translate c la .read) (raisePf untranslated la)
  stopIf (inEpc c p = true) (.refuse r)
  return p

/-- The target page (40_eaug.md R75). -/
def resolveTarget (s : State) (laT : LinAddr) : Except Stop Nat :=
  resolveInEpc s.cfg laT .write .targetTranslate .targetNotEpc

/-- The PAGEINFO's fields, its two pointers no wider than an effective address (40_eaug.md R76). -/
def readPageinfo (s : State) (laPi : LinAddr) : Except Stop Pageinfo := do
  let p ← resolveOrdinary s.cfg laPi .pageinfoTranslate .pageinfoInEpc
  let pi := pageinfoAt s p
  stopIf (widePointer s.cfg.mode pi.secs = true ∨ widePointer s.cfg.mode pi.secinfo = true)
    (.refuse .widePointer)
  return pi

/-- The SECINFO's linear address, when PAGEINFO gives one (40_eaug.md R77). -/
def secinfoOperand (s : State) (pi : Pageinfo) : Except Stop (Option LinAddr) :=
  if pi.secinfo = 0#64 then .ok none
  else do
    let la ← alignedOperand s pi.secinfo 64 64
    return some la

/-- The SECS page's linear address; `LINADDR` must be page-aligned too (40_eaug.md R78). -/
def secsOperand (s : State) (pi : Pageinfo) : Except Stop LinAddr := do
  let la ← orStop (lin s pi.secs 4096) raiseGp
  stopIf (aligned la 4096 = false ∨ aligned pi.linaddr 4096 = false) raiseGp
  return la

/-- The source page must be absent (40_eaug.md R79). -/
def checkSrcpge (pi : Pageinfo) : Except Stop Unit := stopIf (pi.srcpge ≠ 0#64) raiseGp

/-- The SECS page (40_eaug.md R80). -/
def resolveSecs (s : State) (laS : LinAddr) : Except Stop Nat :=
  resolveInEpc s.cfg laS .readwrite .secsTranslate .secsNotEpc

/-! ### Concurrency and validity checks -/

/-- The target page must not be in use: a VM exit or `#GP(0)` (40_eaug.md R81). -/
def checkTargetLock (s : State) (laT : LinAddr) (pT : Nat) : Except Stop Unit :=
  stopIf (s.lockAt pT ≠ .free)
    (if s.vmxNonRoot ∧ s.epcVirtExt then .vmExit pT laT else raiseGp)

/-- The target page must be free (40_eaug.md R82). -/
def checkTargetFree (s : State) (laT : LinAddr) (pT : Nat) : Except Stop Unit :=
  stopIf ((s.epcmAt pT).valid = true) (raisePf .targetValid laT)

/-- The six-term test of a caller's SECINFO and the test of its state bits (40_eaug.md R84). -/
def checkSecinfo (s : State) (si : Secinfo) : Except Stop SecAttrs := do
  stopIf (si.reservedNonzero = true ∨ s.cfg.cpuid.leaf12Eax6 = false ∨
    (si.pt ≠ some .ssFirst ∧ si.pt ≠ some .ssRest) ∨
    si.r = false ∨ si.w = false ∨ si.x = true) raiseGp
  stopIf (si.stateNonzero = true) (.refuse .secinfoStateBits)
  let pt ← orStop si.pt raiseGp
  return { r := si.r, w := si.w, x := si.x, pt := pt }

/-- The page's security attributes: the defaults, or the caller's (40_eaug.md R83, R84). -/
def securityAttributes (s : State) (laSi : Option LinAddr) : Except Stop SecAttrs :=
  match laSi with
  | none => .ok defaultAttrs
  | some la => do
    let p ← resolveOrdinary s.cfg la .secinfoTranslate .secinfoInEpc
    checkSecinfo s (secinfoAt s p)

/-- Shadow-stack page types need `CR4.CET` (40_eaug.md R85). -/
def checkCet (s : State) (a : SecAttrs) : Except Stop Unit :=
  stopIf (isShadowStack a.pt = true ∧ s.cr4Cet = false) raiseGp

/-- The SECS must be available (40_eaug.md R86). -/
def checkSecsLock (s : State) (pS : Nat) : Except Stop Unit :=
  stopIf (s.lockAt pS = .exclusive) raiseGp

/-- The target must not be the SECS page (40_eaug.md R87). -/
def checkDistinct (pT pS : Nat) : Except Stop Unit := stopIf (pS = pT) (.refuse .targetIsSecs)

/-- The SECS page must be a valid SECS (40_eaug.md R88). -/
def checkSecsValid (s : State) (laS : LinAddr) (pS : Nat) : Except Stop Unit :=
  stopIf ((s.epcmAt pS).valid = false ∨ (s.epcmAt pS).pt ≠ .secs) (raisePf .secsInvalid laS)

/-- The enclave must be initialized (40_eaug.md R89). -/
def checkInitialized (s : State) (pS : Nat) : Except Stop Unit :=
  stopIf ((s.secsAt pS).initialized = false) raiseGp

/-- `LINADDR` must lie in the enclave; the sum is exact (40_eaug.md R90). -/
def checkRange (secs : Secs) (linaddr : Word) : Except Stop Unit := do
  stopIf (linaddr.toNat < secs.baseaddr.toNat) raiseGp
  stopIf (2 ^ 64 ≤ secs.baseaddr.toNat + secs.size.toNat) (.refuse .rangeOverflow)
  stopIf (secs.baseaddr.toNat + secs.size.toNat ≤ linaddr.toNat) raiseGp

/-- A shadow-stack page must not be the first or the last page of the range; the last page's address is
exact and may be negative, when nothing equals it (40_eaug.md R91). -/
def checkShadowEnds (secs : Secs) (linaddr : Word) (a : SecAttrs) : Except Stop Unit :=
  stopIf (isShadowStack a.pt = true ∧
    (linaddr.toNat = secs.baseaddr.toNat ∨
      linaddr.toNat + 0x1000 = secs.baseaddr.toNat + secs.size.toNat)) raiseGp

/-- The page gets a shadow-stack token (40_eaug.md R93). -/
def needsToken (c : Config) (a : SecAttrs) : Bool := c.cpuid.cetSs && a.pt == .ssFirst

/-- The token's address must fit, tested before any write (40_eaug.md R93). -/
def checkToken (c : Config) (linaddr : Word) (a : SecAttrs) : Except Stop Unit :=
  stopIf (needsToken c a = true ∧ 2 ^ 64 ≤ linaddr.toNat + 0x1000) (.refuse .tokenOverflow)

/-! ### The checks assembled and the writes -/

/-- What the checks settle for the writes. -/
structure EaugPlan where
  /-- The target page's physical address. -/
  target : Nat
  /-- The SECS page's physical address. -/
  secsPage : Nat
  linaddr : Word
  attrs : SecAttrs
deriving DecidableEq, Repr

/-- All the checks in the source's order (40_eaug.md R71 to R91, section 7). -/
def eaugChecks (s : State) : Except Stop EaugPlan := do
  checkAdmission s
  checkPrivilege s
  let laPi ← pageinfoOperand s
  let laT ← targetOperand s
  let pT ← resolveTarget s laT
  let pi ← readPageinfo s laPi
  let laSi ← secinfoOperand s pi
  let laS ← secsOperand s pi
  checkSrcpge pi
  let pS ← resolveSecs s laS
  checkTargetLock s laT pT
  checkTargetFree s laT pT
  let a ← securityAttributes s laSi
  checkCet s a
  checkSecsLock s pS
  checkDistinct pT pS
  checkSecsValid s laS pS
  checkInitialized s pS
  checkRange (s.secsAt pS) pi.linaddr
  checkShadowEnds (s.secsAt pS) pi.linaddr a
  checkToken s.cfg pi.linaddr a
  return { target := pT, secsPage := pS, linaddr := pi.linaddr, attrs := a }

/-- The shadow-stack token: the page after this one, bit 0 telling a 64-bit enclave (40_eaug.md R93). -/
def shadowStackToken (linaddr : Word) (secs : Secs) : Word :=
  (linaddr + 0x1000#64) ||| (BitVec.ofBool secs.mode64bit).setWidth 64

/-- Memory after the writes: the page zeroed, then the token stored in its last 8 bytes where one is
due (40_eaug.md R92, R93). -/
def eaugMemory (s : State) (p : EaugPlan) : Memory :=
  let zeroed := zeroPage s.mem p.target
  if needsToken s.cfg p.attrs then
    write64 zeroed (p.target + 0xFF8) (shadowStackToken p.linaddr (s.secsAt p.secsPage))
  else zeroed

/-- The EPCM entry of the new page (40_eaug.md R94, R95). -/
def newEpcmEntry (p : EaugPlan) : EpcmEntry where
  valid := true
  r := p.attrs.r
  w := p.attrs.w
  x := p.attrs.x
  pt := p.attrs.pt
  enclaveAddress := p.linaddr
  blocked := false
  pending := true
  modified := false
  pr := false
  enclaveSecs := p.secsPage

/-- The writes of the leaf, and the advance of the instruction pointer (40_eaug.md R92 to R95). -/
def eaugCommit (s : State) (p : EaugPlan) : State :=
  { s with
    mem := eaugMemory s p
    epcm := setEpcm s.epcm p.target (newEpcmEntry p)
    pc := nextPc s.cfg s.pc
    flags := flagsAfterEaug s.flags }

/-- `ENCLS[EAUG]` (40_eaug.md R70). -/
def execEnclsEaug (s : State) : Outcome :=
  match eaugChecks s with
  | .ok p => .next (eaugCommit s p)
  | .error x => x.outcome s

end Sys2Proof.Machine
end

