-- ==== Sys2Proof/Machine/Step.lean ====
section
/-!
DEFINITION. One step: the bytes at the instruction pointer are decoded and the instruction runs. The
spec's model is handed its instruction (20_memory.md R55, D25); `State.code` is what it is handed.
-/

namespace Sys2Proof.Machine

/-- One step. After a VM exit there is none (60_exceptions.md R114, 70_reset_and_hazards.md R147). -/
def step (s : State) : Host.Outcome State Fault Refusal :=
  if s.vmExited then .refused .afterVmExit
  else
    match decode s.cfg.mode s.fetch with
    | .instr i _ => exec i s
    | .prefixedForm => .refused .prefixedForm
    | .otherBytes => .refused .otherInstruction

/-- Stores an instruction of the opcode table where `step` fetches, with the leaf number its row
asks for. -/
def State.withFetchWord (s : State) (nbits w : Nat) : State := s.placeInstruction nbits w

end Sys2Proof.Machine
end

