-- ==== Sys2Proof/WellFormed.lean ====
section
/-!
DEFINITION. Well-formed instructions and configurations. The one instruction has no field and so
nothing to check; the checks that mean something here are on the configuration: a layout whose
fields lie inside their structures and do not overlap, and a translation that keeps page offsets.
No meaning tests them: they are premises of claims.
-/

namespace Sys2Proof

/-- Every instruction is well formed: the bytes of `ENCLS` hold no field (30_encoding.md R63). -/
def Instr.wf : Instr → Bool
  | .enclsEaug => true

/-- Two 8-byte fields at these offsets do not overlap. -/
def disjointFields (a b : Nat) : Bool := a + 8 ≤ b || b + 8 ≤ a

/-- PAGEINFO is 32 bytes and holds its four 8-byte fields side by side (10_state.md R24). -/
def Layout.pageinfoWf (l : Layout) : Bool :=
  l.offLinaddr ≤ 24 && l.offSrcpge ≤ 24 && l.offSecinfo ≤ 24 && l.offSecs ≤ 24 &&
  disjointFields l.offLinaddr l.offSrcpge && disjointFields l.offLinaddr l.offSecinfo &&
  disjointFields l.offLinaddr l.offSecs && disjointFields l.offSrcpge l.offSecinfo &&
  disjointFields l.offSrcpge l.offSecs && disjointFields l.offSecinfo l.offSecs

/-- The bits `R`, `W` and `X` of SECINFO, as a mask. -/
def Layout.permMask (l : Layout) : BitVec 512 :=
  1#512 <<< l.bitR ||| 1#512 <<< l.bitW ||| 1#512 <<< l.bitX

/-- The bits of `FLAGS.PT`, as a mask. -/
def Layout.ptMask (l : Layout) : BitVec 512 :=
  (1#512 <<< l.ptWidth - 1#512) <<< l.ptLow

/-- The named parts of SECINFO lie inside its 512 bits and share no bit (10_state.md R25). -/
def Layout.secinfoWf (l : Layout) : Bool :=
  l.bitR < 512 && l.bitW < 512 && l.bitX < 512 && l.ptLow + l.ptWidth ≤ 512 &&
  l.bitR != l.bitW && l.bitR != l.bitX && l.bitW != l.bitX &&
  l.permMask &&& l.ptMask == 0#512 && l.permMask &&& l.stateMask == 0#512 &&
  l.permMask &&& l.reservedMask == 0#512 && l.ptMask &&& l.stateMask == 0#512 &&
  l.ptMask &&& l.reservedMask == 0#512 && l.stateMask &&& l.reservedMask == 0#512

/-- No page-type number is listed twice, and each of the four types the source names has one
(10_state.md R26). -/
def Layout.ptCodesWf (l : Layout) : Bool :=
  (l.ptCodes.map (·.1)).Nodup &&
  [PageType.secs, .reg, .ssFirst, .ssRest].all fun t => (l.ptCodes.map (·.2)).contains t

/-- A layout whose fields fit. -/
def Layout.wf (l : Layout) : Bool := l.pageinfoWf && l.secinfoWf && l.ptCodesWf

/-- The translation maps each linear page into one physical page at the same offset: what paging
does, though the spec assumes nothing of `translate` (20_memory.md R43). -/
def Config.keepsPageOffsets (c : Config) : Bool :=
  c.translation.all fun e => e.base % 4096 == e.phys % 4096

/-- A configuration whose layout fits and whose translation keeps page offsets. -/
def Config.wf (c : Config) : Bool := c.layout.wf && c.keepsPageOffsets

end Sys2Proof
end

