-- ==== Sys2Proof/Safety.lean ====
section
/-!
DEFINITION. What counts as a safe run, in the terms claims use: how far the leaf has come (one
predicate per check of 40_eaug.md, each saying that this check and all before it passed), when it
succeeds (70_reset_and_hazards.md R141), and the invariants of the machine.
-/

namespace Sys2Proof.Machine

/-! ### How far the leaf has come -/

/-- The addresses the leaf's operands resolve to, and the attributes it settles on. -/
structure EaugOperands where
  /-- Linear addresses of the PAGEINFO, the target page, the SECINFO and the SECS page. -/
  laPi : LinAddr
  laT : LinAddr
  laSi : LinAddr
  laS : LinAddr
  /-- The physical addresses they resolve to. -/
  pPi : Nat
  pT : Nat
  pSi : Nat
  pS : Nat
  attrs : SecAttrs
deriving DecidableEq, Repr

/-- The PAGEINFO the leaf reads. -/
abbrev EaugOperands.pageinfo (o : EaugOperands) (s : State) : Pageinfo := pageinfoAt s o.pPi

/-- The leaf exists: the four conditions of its availability (30_encoding.md R65, 60_exceptions.md
R123). -/
abbrev LeafAvailable (c : Config) : Prop :=
  c.cpuid.sgx2 = true ∧ c.sgxEnabled = true ∧ c.protectedMode = true ∧ c.outsideEnclave = true

/-- The leaf is EAUG, the processor has it, and its next instruction has an address (R72, R12). -/
abbrev Admitted (s : State) : Prop :=
  s.eax = 0x0D#32 ∧ LeafAvailable s.cfg ∧
    s.pc.toNat + s.cfg.enclsLength < 2 ^ addressWidth s.cfg.mode

/-- ... and it runs at privilege level 0 (R71). -/
abbrev Privileged (s : State) : Prop := Admitted s ∧ s.cpl = 0#2

/-- ... and `DS:RBX` is a 32-byte-aligned address (R73). -/
abbrev PageinfoAddressed (s : State) (o : EaugOperands) : Prop :=
  Privileged s ∧ lin s (effectiveAddress s.cfg.mode s.rbx) 32 = some o.laPi ∧
    o.laPi.toNat % 32 = 0

/-- ... and `DS:RCX` is a page-aligned address (R74). -/
abbrev TargetAddressed (s : State) (o : EaugOperands) : Prop :=
  PageinfoAddressed s o ∧ lin s (effectiveAddress s.cfg.mode s.rcx) 4096 = some o.laT ∧
    o.laT.toNat % 4096 = 0

/-- ... and it resolves within the EPC (R75). -/
abbrev TargetResolved (s : State) (o : EaugOperands) : Prop :=
  TargetAddressed s o ∧ translate s.cfg o.laT .write = some o.pT ∧ inEpc s.cfg o.pT = true

/-- ... and the PAGEINFO is readable, outside the EPC, with pointers that fit (R76). -/
abbrev PageinfoRead (s : State) (o : EaugOperands) : Prop :=
  TargetResolved s o ∧ translate s.cfg o.laPi .read = some o.pPi ∧ inEpc s.cfg o.pPi = false ∧
    (s.cfg.mode = .mode32 →
      (o.pageinfo s).secs.toNat < 2 ^ 32 ∧ (o.pageinfo s).secinfo.toNat < 2 ^ 32)

/-- ... and the SECINFO, if one is given, is at a 64-byte-aligned address (R77). -/
abbrev SecinfoAddressed (s : State) (o : EaugOperands) : Prop :=
  PageinfoRead s o ∧
    ((o.pageinfo s).secinfo ≠ 0#64 →
      lin s (o.pageinfo s).secinfo 64 = some o.laSi ∧ o.laSi.toNat % 64 = 0)

/-- ... and the SECS and `LINADDR` are page-aligned (R78). -/
abbrev SecsAddressed (s : State) (o : EaugOperands) : Prop :=
  SecinfoAddressed s o ∧ lin s (o.pageinfo s).secs 4096 = some o.laS ∧
    o.laS.toNat % 4096 = 0 ∧ (o.pageinfo s).linaddr.toNat % 4096 = 0

/-- ... and there is no source page (R79). -/
abbrev SourceAbsent (s : State) (o : EaugOperands) : Prop :=
  SecsAddressed s o ∧ (o.pageinfo s).srcpge = 0#64

/-- ... and the SECS resolves within the EPC (R80). -/
abbrev SecsResolved (s : State) (o : EaugOperands) : Prop :=
  SourceAbsent s o ∧ translate s.cfg o.laS .readwrite = some o.pS ∧ inEpc s.cfg o.pS = true

/-- ... and nobody holds the target page (R81). -/
abbrev TargetUnlocked (s : State) (o : EaugOperands) : Prop :=
  SecsResolved s o ∧ s.lockAt o.pT = .free

/-- ... and it is free (R82). -/
abbrev TargetFree (s : State) (o : EaugOperands) : Prop :=
  TargetUnlocked s o ∧ (s.epcmAt o.pT).valid = false

/-- ... and the SECINFO, if one is given, is readable outside the EPC (R84). -/
abbrev SecinfoRead (s : State) (o : EaugOperands) : Prop :=
  TargetFree s o ∧
    ((o.pageinfo s).secinfo ≠ 0#64 →
      translate s.cfg o.laSi .read = some o.pSi ∧ inEpc s.cfg o.pSi = false)

/-- A SECINFO that none of the six sourced terms of R84 rejects. -/
abbrev SecinfoAccepted (s : State) (si : Secinfo) : Prop :=
  si.reservedNonzero = false ∧ s.cfg.cpuid.leaf12Eax6 = true ∧
    (si.pt = some .ssFirst ∨ si.pt = some .ssRest) ∧ si.r = true ∧ si.w = true ∧ si.x = false

/-- ... and the attributes are the defaults, or those of an accepted SECINFO (R83, R84). -/
abbrev AttributesSettled (s : State) (o : EaugOperands) : Prop :=
  SecinfoRead s o ∧
    ((o.pageinfo s).secinfo = 0#64 → o.attrs = defaultAttrs) ∧
    ((o.pageinfo s).secinfo ≠ 0#64 →
      SecinfoAccepted s (secinfoAt s o.pSi) ∧ (secinfoAt s o.pSi).stateNonzero = false ∧
        (secinfoAt s o.pSi).pt = some o.attrs.pt ∧
        o.attrs.r = true ∧ o.attrs.w = true ∧ o.attrs.x = false)

/-- ... and a shadow-stack page finds `CR4.CET` set (R85). -/
abbrev CetEnabled (s : State) (o : EaugOperands) : Prop :=
  AttributesSettled s o ∧ (isShadowStack o.attrs.pt = true → s.cr4Cet = true)

/-- ... and nobody holds the SECS exclusively (R86). -/
abbrev SecsUnlocked (s : State) (o : EaugOperands) : Prop :=
  CetEnabled s o ∧ s.lockAt o.pS ≠ .exclusive

/-- ... and the SECS is another page than the target (R87). -/
abbrev SecsDistinct (s : State) (o : EaugOperands) : Prop := SecsUnlocked s o ∧ o.pS ≠ o.pT

/-- ... and it is a valid SECS (R88). -/
abbrev SecsValid (s : State) (o : EaugOperands) : Prop :=
  SecsDistinct s o ∧ (s.epcmAt o.pS).valid = true ∧ (s.epcmAt o.pS).pt = .secs

/-- ... of an initialized enclave (R89). -/
abbrev EnclaveInitialized (s : State) (o : EaugOperands) : Prop :=
  SecsValid s o ∧ (s.secsAt o.pS).initialized = true

/-- ... whose range holds `LINADDR` (R90). -/
abbrev LinaddrInRange (s : State) (o : EaugOperands) : Prop :=
  EnclaveInitialized s o ∧
    (s.secsAt o.pS).baseaddr.toNat ≤ (o.pageinfo s).linaddr.toNat ∧
    (o.pageinfo s).linaddr.toNat < (s.secsAt o.pS).baseaddr.toNat + (s.secsAt o.pS).size.toNat ∧
    (s.secsAt o.pS).baseaddr.toNat + (s.secsAt o.pS).size.toNat < 2 ^ 64

/-- `LINADDR` is the first or the last page of the enclave's range (R91). -/
abbrev atRangeEnd (linaddr : Word) (secs : Secs) : Prop :=
  linaddr.toNat = secs.baseaddr.toNat ∨
    linaddr.toNat + 0x1000 = secs.baseaddr.toNat + secs.size.toNat

/-- ... and a shadow-stack page is at neither end of it (R91). -/
abbrev NotAtRangeEnd (s : State) (o : EaugOperands) : Prop :=
  LinaddrInRange s o ∧
    (isShadowStack o.attrs.pt = true → ¬ atRangeEnd (o.pageinfo s).linaddr (s.secsAt o.pS))

/-- A token is due: a first shadow-stack page on a processor with `CET_SS` (R93). -/
abbrev TokenDue (s : State) (o : EaugOperands) : Prop :=
  s.cfg.cpuid.cetSs = true ∧ o.attrs.pt = .ssFirst

/-- ... and the token, if one is due, fits in 64 bits (R93): every check has passed, and these are
the premises of success (70_reset_and_hazards.md R141, and 30_encoding.md R65 for availability). -/
abbrev EaugSucceeds (s : State) (o : EaugOperands) : Prop :=
  NotAtRangeEnd s o ∧ (TokenDue s o → (o.pageinfo s).linaddr.toNat + 0x1000 < 2 ^ 64)

/-! ### Outcomes -/

/-- The outcome with its next state, if it has one, changed by `g`. -/
def mapNext (g : State → State) : Outcome → Outcome
  | .next t => .next (g t)
  | .fault f => .fault f
  | .refused r => .refused r

/-- The same fields outside the four the leaf can write on success or on a VM exit (10_state.md R30)
and the model's own mark of a VM exit. -/
abbrev SameInputs (s t : State) : Prop :=
  t.cfg = s.cfg ∧ t.rax = s.rax ∧ t.rbx = s.rbx ∧ t.rcx = s.rcx ∧ t.otherRegs = s.otherRegs ∧
    t.flags = s.flags ∧ t.cpl = s.cpl ∧ t.ds = s.ds ∧ t.cr4Cet = s.cr4Cet ∧
    t.vmxNonRoot = s.vmxNonRoot ∧ t.epcVirtExt = s.epcVirtExt ∧ t.secs = s.secs ∧
    t.locks = s.locks ∧ t.code = s.code

/-! ### Invariants -/

/-- Every table of the state has its canonical form. -/
def State.storageWf (s : State) : Bool :=
  s.mem.wf && s.code.wf && Table.wf unlistedEpcm s.epcm && Table.wf unlistedSecs s.secs &&
    Table.wf unlistedLock s.locks

/-- The instruction pointer has `AW` bits (10_state.md R12). -/
def State.pcFits (s : State) : Prop := s.pc.toNat < 2 ^ addressWidth s.cfg.mode

/-- A pending page's entry is one the leaf writes: default or shadow-stack attributes, aligned and
inside the range of a valid, initialized SECS in the EPC, and off its ends for a shadow stack
(40_eaug.md R83 to R94). -/
def PendingEntryOk (s : State) (e : EpcmEntry) : Prop :=
  e.r = true ∧ e.w = true ∧ e.x = false ∧
    (e.pt = .reg ∨ e.pt = .ssFirst ∨ e.pt = .ssRest) ∧
    e.blocked = false ∧ e.modified = false ∧ e.pr = false ∧
    inEpc s.cfg e.enclaveSecs = true ∧
    (s.epcmAt e.enclaveSecs).valid = true ∧ (s.epcmAt e.enclaveSecs).pt = .secs ∧
    (s.secsAt e.enclaveSecs).initialized = true ∧
    e.enclaveAddress.toNat % 4096 = 0 ∧
    (s.secsAt e.enclaveSecs).baseaddr.toNat ≤ e.enclaveAddress.toNat ∧
    e.enclaveAddress.toNat <
      (s.secsAt e.enclaveSecs).baseaddr.toNat + (s.secsAt e.enclaveSecs).size.toNat ∧
    (isShadowStack e.pt = true → ¬ atRangeEnd e.enclaveAddress (s.secsAt e.enclaveSecs))

/-- Every valid pending page lies in the EPC and belongs to a valid, initialized enclave that its
address lies in. -/
def State.pendingPagesOwned (s : State) : Prop :=
  ∀ p : Nat, (s.epcmAt p).valid = true → (s.epcmAt p).pending = true →
    inEpc s.cfg p = true ∧ PendingEntryOk s (s.epcmAt p)

/-- The physical address of a byte of the page that holds `p`. -/
def pageByte (p : Nat) (i : Nat) : Nat := 4096 * frameOf p + i

/-- Every valid pending page holds only zeros, but for the last 8 bytes of a first shadow-stack page
(40_eaug.md R92, R93). -/
def State.pendingPagesZero (s : State) : Prop :=
  ∀ p : Nat, (s.epcmAt p).valid = true → (s.epcmAt p).pending = true →
    ∀ i < 4096, (i < 0xFF8 ∨ (s.epcmAt p).pt ≠ .ssFirst) → s.byteAt (pageByte p i) = 0#8

end Sys2Proof.Machine
end

