-- ==== Sys2Proof/Certificates/Slice0/Obligations.lean ====
section
/-!
DEFINITION. The statements for the provers, each a proposition about the machine. The predicates of
Safety.lean say how far the leaf has come; a statement about a check assumes the predicate before it.
-/

open Sys2Proof Sys2Proof.Machine

/-! ### Encoding, decoding and the step -/

/-- The word of the opcode table decodes to the instruction, its three bytes do so in both modes,
the same bytes in the other order do not, and behind an operand-size prefix they are a prefixed
form. The bytes are the spec's general knowledge G1 (notes/assumptions/1.md, 9.md, 10.md). -/
def Obligations.TableWordDecodes : Prop :=
  decodeTableWord 24 0x0F01CF = some .enclsEaug ∧
    decodeTableWord 24 0xCF010F = none ∧
    decode .mode64 [0x0F#8, 0x01#8, 0xCF#8] = .instr .enclsEaug [] ∧
    decode .mode32 [0x0F#8, 0x01#8, 0xCF#8] = .instr .enclsEaug [] ∧
    decode .mode64 [0x66#8, 0x0F#8, 0x01#8, 0xCF#8] = .prefixedForm ∧
    encode .enclsEaug = [0x0F#8, 0x01#8, 0xCF#8]

/-- Decoding the encoding of a well-formed instruction, whatever bytes follow it, gives it back. The
bytes are the spec's general knowledge G1 (notes/assumptions/1.md). -/
def Obligations.EncodeThenDecode : Prop :=
  ∀ (m : Mode) (i : Instr) (rest : List Byte), i.wf = true →
    decode m (encode i ++ rest) = .instr i rest

/-- Bytes that decode to an instruction begin with its encoding. The bytes are the spec's general
knowledge G1 (notes/assumptions/1.md). -/
def Obligations.DecodedBytesAreEncoding : Prop :=
  ∀ (m : Mode) (bs : List Byte) (i : Instr) (rest : List Byte),
    decode m bs = .instr i rest → bs = encode i ++ rest

/-- An instruction behind any number of prefixes, at least one, is a prefixed form. The prefix bytes
are the model's (notes/assumptions/10.md). -/
def Obligations.PrefixedEncodingIsPrefixedForm : Prop :=
  ∀ (m : Mode) (ps : List Byte) (i : Instr) (rest : List Byte), ps ≠ [] →
    (∀ b ∈ ps, isPrefix m b = true) → decode m (ps ++ encode i ++ rest) = .prefixedForm

/-- Where the bytes at the instruction pointer decode to an instruction, and no VM exit has been
delivered, a step is the instruction's execution and nothing more. The fetch is the model's choice
(notes/assumptions/8.md). -/
def Obligations.StepRunsDecoded : Prop :=
  ∀ (s : State) (i : Instr) (rest : List Byte), s.vmExited = false →
    decode s.cfg.mode s.fetch = .instr i rest → i.wf = true → step s = exec i s

/-- A step refuses a prefixed form and any bytes that are no instruction of the spec. The refusals
are the model's choice (notes/assumptions/21.md, 34.md). -/
def Obligations.StepRefusesOtherBytes : Prop :=
  (∀ s : State, s.vmExited = false → decode s.cfg.mode s.fetch = .prefixedForm →
      step s = .refused .prefixedForm) ∧
    ∀ s : State, s.vmExited = false → decode s.cfg.mode s.fetch = .otherBytes →
      step s = .refused .otherInstruction

/-- There is no step after a VM exit. That the VM exit is a next state with a mark, and then a
refusal, is the model's choice (notes/assumptions/7.md). -/
def Obligations.NoStepAfterVmExit : Prop :=
  (∀ (s : State) (gpa : Nat) (gla : LinAddr),
      step (s.deliverVmExit gpa gla) = .refused .afterVmExit) ∧
    ∀ s : State, s.vmExited = true → step s = .refused .afterVmExit

/-- The word of the opcode table, placed where the machine fetches, is what the next step runs, and
placing it changes only the code bytes and the register that holds the leaf number. Where the bytes
stand, and that placing them sets `EAX`, is the model's choice (notes/assumptions/8.md). -/
def Obligations.PlacedWordRuns : Prop :=
  ∀ s : State, s.code.wf = true → s.vmExited = false →
    step (s.withFetchWord 24 0x0F01CF) = exec .enclsEaug (s.withFetchWord 24 0x0F01CF) ∧
      (s.withFetchWord 24 0x0F01CF).eax = 0x0D#32 ∧
      { s.withFetchWord 24 0x0F01CF with code := s.code, rax := s.rax } = s

/-! ### Admission and privilege -/

/-- The three admission tests in their order. Another leaf number is refused; so is a leaf that is
not available, because the processor lacks SGX2, SGX is not enabled, the processor is outside
protected and 64-bit mode, or it is inside an enclave; so is an instruction pointer too near the
top. These are the spec's decisions D2, D4 and D5 (notes/assumptions/21.md, 22.md). -/
def Obligations.AdmissionRefusals : Prop :=
  (∀ s : State, s.eax ≠ 0x0D#32 → exec .enclsEaug s = .refused .otherLeaf) ∧
    (∀ s : State, s.eax = 0x0D#32 →
      (s.cfg.cpuid.sgx2 = false ∨ s.cfg.sgxEnabled = false ∨ s.cfg.protectedMode = false ∨
        s.cfg.outsideEnclave = false) →
      exec .enclsEaug s = .refused .featureAbsent) ∧
    ∀ s : State, s.eax = 0x0D#32 → LeafAvailable s.cfg →
      2 ^ addressWidth s.cfg.mode ≤ s.pc.toNat + s.cfg.enclsLength →
      exec .enclsEaug s = .refused .pcWrap

/-- Above privilege level 0 the leaf raises `#GP(0)`, whatever its operands. That it is `#GP(0)`,
and first, is the spec's decision D3 (notes/assumptions/17.md). -/
def Obligations.UnprivilegedRaisesGp : Prop :=
  ∀ s : State, Admitted s → s.cpl ≠ 0#2 → exec .enclsEaug s = .fault .gp0

/-! ### Operand checks -/

/-- A PAGEINFO whose address is not in DS or not 32-byte aligned raises `#GP(0)`. The place of the
segment and canonical tests is the spec's decision D7, their formulae are general knowledge
(notes/assumptions/15.md, 18.md). -/
def Obligations.PageinfoAddressRaisesGp : Prop :=
  ∀ s : State, Privileged s →
    (lin s (effectiveAddress s.cfg.mode s.rbx) 32 = none →
        exec .enclsEaug s = .fault .gp0) ∧
      ∀ la : LinAddr, lin s (effectiveAddress s.cfg.mode s.rbx) 32 = some la →
        la.toNat % 32 ≠ 0 → exec .enclsEaug s = .fault .gp0

/-- A target whose address is not in DS or not page-aligned raises `#GP(0)`. The place of the
segment and canonical tests is the spec's decision D7, their formulae are general knowledge
(notes/assumptions/15.md, 18.md). -/
def Obligations.TargetAddressRaisesGp : Prop :=
  ∀ (s : State) (o : EaugOperands), PageinfoAddressed s o →
    (lin s (effectiveAddress s.cfg.mode s.rcx) 4096 = none →
        exec .enclsEaug s = .fault .gp0) ∧
      ∀ la : LinAddr, lin s (effectiveAddress s.cfg.mode s.rcx) 4096 = some la →
        la.toNat % 4096 ≠ 0 → exec .enclsEaug s = .fault .gp0

/-- A target that paging does not translate for a write, or that is outside the EPC, raises `#PF` at
its linear address. The place of the translation fault is the spec's decision D8
(notes/assumptions/18.md), the error code is open (notes/assumptions/5.md). -/
def Obligations.TargetOutsideEpcRaisesPf : Prop :=
  ∀ (s : State) (o : EaugOperands), TargetAddressed s o →
    (translate s.cfg o.laT .write = none →
        exec .enclsEaug s = .fault (.pf o.laT (Config.pfErrorCode .targetTranslate))) ∧
      ∀ p : Nat, translate s.cfg o.laT .write = some p → inEpc s.cfg p = false →
        exec .enclsEaug s = .fault (.pf o.laT (Config.pfErrorCode .targetNotEpc))

/-- A PAGEINFO that paging does not translate for a read raises `#PF`; one inside the EPC is
refused; and in 32-bit mode one whose SECS or SECINFO pointer is wider than 32 bits is refused. The
refusals are the spec's decisions D10 and D6 (notes/assumptions/23.md, 24.md), the place of the page
fault is D8 (notes/assumptions/18.md). -/
def Obligations.PageinfoReadStops : Prop :=
  ∀ (s : State) (o : EaugOperands), TargetResolved s o →
    (translate s.cfg o.laPi .read = none →
        exec .enclsEaug s = .fault (.pf o.laPi (Config.pfErrorCode .pageinfoTranslate))) ∧
      (∀ p : Nat, translate s.cfg o.laPi .read = some p → inEpc s.cfg p = true →
        exec .enclsEaug s = .refused .pageinfoInEpc) ∧
      ∀ p : Nat, translate s.cfg o.laPi .read = some p → inEpc s.cfg p = false →
        s.cfg.mode = .mode32 →
        (2 ^ 32 ≤ (pageinfoAt s p).secs.toNat ∨ 2 ^ 32 ≤ (pageinfoAt s p).secinfo.toNat) →
        exec .enclsEaug s = .refused .widePointer

/-- A SECINFO that is given and whose address is not in DS or not 64-byte aligned raises `#GP(0)`.
The place of the segment and canonical tests is the spec's decision D7 (notes/assumptions/18.md). -/
def Obligations.SecinfoAddressRaisesGp : Prop :=
  ∀ (s : State) (o : EaugOperands), PageinfoRead s o → (o.pageinfo s).secinfo ≠ 0#64 →
    (lin s (o.pageinfo s).secinfo 64 = none → exec .enclsEaug s = .fault .gp0) ∧
      ∀ la : LinAddr, lin s (o.pageinfo s).secinfo 64 = some la →
        la.toNat % 64 ≠ 0 → exec .enclsEaug s = .fault .gp0

/-- A SECS whose address is not in DS or not page-aligned, or a `LINADDR` that is not page-aligned,
raises `#GP(0)`. The place of the segment and canonical tests is the spec's decision D7, their
formulae are general knowledge (notes/assumptions/15.md, 18.md). -/
def Obligations.SecsOrLinaddrMisalignedRaisesGp : Prop :=
  ∀ (s : State) (o : EaugOperands), SecinfoAddressed s o →
    (lin s (o.pageinfo s).secs 4096 = none → exec .enclsEaug s = .fault .gp0) ∧
      ∀ la : LinAddr, lin s (o.pageinfo s).secs 4096 = some la →
        (la.toNat % 4096 ≠ 0 ∨ (o.pageinfo s).linaddr.toNat % 4096 ≠ 0) →
        exec .enclsEaug s = .fault .gp0

/-- A source page raises `#GP(0)`, whichever bit of the 64-bit field is set. That all 64 bits are
tested is the spec's inference from the field being one of four equal fields. -/
def Obligations.SourcePageRaisesGp : Prop :=
  ∀ (s : State) (o : EaugOperands), SecsAddressed s o → (o.pageinfo s).srcpge ≠ 0#64 →
    exec .enclsEaug s = .fault .gp0

/-- A SECS that paging does not translate for reading and writing, or that is outside the EPC,
raises `#PF` at its linear address. The place of the translation fault is the spec's decision D8
(notes/assumptions/18.md), the error code is open (notes/assumptions/5.md). -/
def Obligations.SecsOutsideEpcRaisesPf : Prop :=
  ∀ (s : State) (o : EaugOperands), SourceAbsent s o →
    (translate s.cfg o.laS .readwrite = none →
        exec .enclsEaug s = .fault (.pf o.laS (Config.pfErrorCode .secsTranslate))) ∧
      ∀ p : Nat, translate s.cfg o.laS .readwrite = some p → inEpc s.cfg p = false →
        exec .enclsEaug s = .fault (.pf o.laS (Config.pfErrorCode .secsNotEpc))

/-! ### Concurrency and validity checks -/

/-- A target page that another thread holds, shared or exclusive, ends the leaf in the
`SGX_CONFLICT` VM exit in VMX non-root operation with the EPC virtualization extensions, with the
five VMCS fields written and nothing else changed but the model's mark, and else in `#GP(0)`. The
lock states, the guest-physical address and the form of the VM exit are decisions D11, D32 and D18
(notes/assumptions/7.md, 19.md). -/
def Obligations.TargetInUseExitsOrRaisesGp : Prop :=
  ∀ (s : State) (o : EaugOperands), SecsResolved s o → s.lockAt o.pT ≠ .free →
    (s.vmxNonRoot = true ∧ s.epcVirtExt = true →
        exec .enclsEaug s = .next
          { s with
            vmcs :=
              { exitReason := Config.sgxConflict
                qualificationCode := Config.epcPageConflictException
                qualificationError := 0
                guestPhysicalAddress := o.pT
                guestLinearAddress := o.laT }
            vmExited := true }) ∧
      (s.vmxNonRoot = false ∨ s.epcVirtExt = false → exec .enclsEaug s = .fault .gp0)

/-- A target page whose EPCM entry is already valid raises `#PF` at its linear address. The error
code is open (notes/assumptions/5.md). -/
def Obligations.ValidTargetRaisesPf : Prop :=
  ∀ (s : State) (o : EaugOperands), TargetUnlocked s o → (s.epcmAt o.pT).valid = true →
    exec .enclsEaug s = .fault (.pf o.laT (Config.pfErrorCode .targetValid))

/-- A SECINFO that is given and that paging does not translate for a read raises `#PF`; one inside
the EPC is refused. The refusal is the spec's decision D10 (notes/assumptions/24.md), the place of
the page fault is D8 (notes/assumptions/18.md). -/
def Obligations.SecinfoReadStops : Prop :=
  ∀ (s : State) (o : EaugOperands), TargetFree s o →
    (o.pageinfo s).secinfo ≠ 0#64 →
    (translate s.cfg o.laSi .read = none →
        exec .enclsEaug s = .fault (.pf o.laSi (Config.pfErrorCode .secinfoTranslate))) ∧
      ∀ p : Nat, translate s.cfg o.laSi .read = some p → inEpc s.cfg p = true →
        exec .enclsEaug s = .refused .secinfoInEpc

/-- A caller's SECINFO raises `#GP(0)` if a reserved field is not 0, if the processor's
`CPUID.(EAX=12H, ECX=1):EAX[6]` is 0, if its type is no shadow-stack type, or if `R` or `W` is 0 or
`X` is 1; and one that passes these six and has a state bit set is refused. The refusal is the
spec's decision D29 (notes/assumptions/25.md). -/
def Obligations.SecinfoRejected : Prop :=
  ∀ (s : State) (o : EaugOperands), SecinfoRead s o → (o.pageinfo s).secinfo ≠ 0#64 →
    ((secinfoAt s o.pSi).reservedNonzero = true ∨ s.cfg.cpuid.leaf12Eax6 = false ∨
        ((secinfoAt s o.pSi).pt ≠ some .ssFirst ∧ (secinfoAt s o.pSi).pt ≠ some .ssRest) ∨
        (secinfoAt s o.pSi).r = false ∨ (secinfoAt s o.pSi).w = false ∨
        (secinfoAt s o.pSi).x = true →
      exec .enclsEaug s = .fault .gp0) ∧
    (SecinfoAccepted s (secinfoAt s o.pSi) → (secinfoAt s o.pSi).stateNonzero = true →
      exec .enclsEaug s = .refused .secinfoStateBits)

/-- A shadow-stack page type with `CR4.CET` clear raises `#GP(0)`, and on the default path `CR4.CET`
is not asked for: there the type is `PT_REG`. -/
def Obligations.ShadowStackNeedsCet : Prop :=
  (∀ (s : State) (o : EaugOperands), AttributesSettled s o →
      (o.attrs.pt = .ssFirst ∨ o.attrs.pt = .ssRest) → s.cr4Cet = false →
      exec .enclsEaug s = .fault .gp0) ∧
    ∀ (s : State) (o : EaugOperands) (c : Bool), EaugSucceeds s o →
      (o.pageinfo s).secinfo = 0#64 →
      o.attrs.pt = .reg ∧
        ∃ t, exec .enclsEaug { s with cr4Cet := c } = .next t ∧ t.vmExited = s.vmExited

/-- A SECS that another thread holds exclusively raises `#GP(0)`, in VMX non-root operation with the
EPC virtualization extensions too. The lock states are the spec's decision D11
(notes/assumptions/19.md). -/
def Obligations.LockedSecsRaisesGp : Prop :=
  ∀ (s : State) (o : EaugOperands), CetEnabled s o → s.lockAt o.pS = .exclusive →
    exec .enclsEaug s = .fault .gp0

/-- A SECS pointer that resolves to the free, unlocked target page itself is refused. This is the
spec's decision D30 (notes/assumptions/26.md). -/
def Obligations.TargetAsSecsRefused : Prop :=
  ∀ (s : State) (o : EaugOperands), SecsUnlocked s o → o.pS = o.pT →
    exec .enclsEaug s = .refused .targetIsSecs

/-- A SECS page that is not valid or not of type `PT_SECS` raises `#PF` at its linear address. The
error code is open (notes/assumptions/5.md). -/
def Obligations.InvalidSecsRaisesPf : Prop :=
  ∀ (s : State) (o : EaugOperands), SecsDistinct s o →
    ((s.epcmAt o.pS).valid = false ∨ (s.epcmAt o.pS).pt ≠ .secs) →
    exec .enclsEaug s = .fault (.pf o.laS (Config.pfErrorCode .secsInvalid))

/-- An enclave that is not initialized raises `#GP(0)`. -/
def Obligations.UninitializedEnclaveRaisesGp : Prop :=
  ∀ (s : State) (o : EaugOperands), SecsValid s o → (s.secsAt o.pS).initialized = false →
    exec .enclsEaug s = .fault .gp0

/-- A `LINADDR` below the enclave raises `#GP(0)`; else a range whose end does not fit in 64 bits is
refused; else a `LINADDR` at or past the end raises `#GP(0)`. The refusal, and the exact sum, are
the spec's decision D14 (notes/assumptions/27.md). -/
def Obligations.LinaddrOutsideEnclaveStops : Prop :=
  ∀ (s : State) (o : EaugOperands), EnclaveInitialized s o →
    ((o.pageinfo s).linaddr.toNat < (s.secsAt o.pS).baseaddr.toNat →
        exec .enclsEaug s = .fault .gp0) ∧
      ((s.secsAt o.pS).baseaddr.toNat ≤ (o.pageinfo s).linaddr.toNat →
        2 ^ 64 ≤ (s.secsAt o.pS).baseaddr.toNat + (s.secsAt o.pS).size.toNat →
        exec .enclsEaug s = .refused .rangeOverflow) ∧
      ((s.secsAt o.pS).baseaddr.toNat + (s.secsAt o.pS).size.toNat < 2 ^ 64 →
        (s.secsAt o.pS).baseaddr.toNat + (s.secsAt o.pS).size.toNat ≤
          (o.pageinfo s).linaddr.toNat →
        exec .enclsEaug s = .fault .gp0)

/-- A shadow-stack page at the first or the last page of the enclave's range raises `#GP(0)`; the
last page's address is `BASEADDR + SIZE - 0x1000` as an integer, which may be negative. -/
def Obligations.ShadowStackAtRangeEndRaisesGp : Prop :=
  ∀ (s : State) (o : EaugOperands), LinaddrInRange s o →
    (o.attrs.pt = .ssFirst ∨ o.attrs.pt = .ssRest) →
    (((o.pageinfo s).linaddr.toNat : Int) = (s.secsAt o.pS).baseaddr.toNat ∨
      ((o.pageinfo s).linaddr.toNat : Int) =
        (s.secsAt o.pS).baseaddr.toNat + (s.secsAt o.pS).size.toNat - 0x1000) →
    exec .enclsEaug s = .fault .gp0

/-- A token whose address does not fit in 64 bits is refused before any write. This is the spec's
decision D15 (notes/assumptions/27.md). -/
def Obligations.TokenOverflowRefused : Prop :=
  ∀ (s : State) (o : EaugOperands), NotAtRangeEnd s o → TokenDue s o →
    2 ^ 64 ≤ (o.pageinfo s).linaddr.toNat + 0x1000 →
    exec .enclsEaug s = .refused .tokenOverflow

/-! ### Success -/

/-- Where the premises of success hold the leaf completes: the target page is zeroed and, if a token
is due, gets its 8 bytes at `0xFF8`; its EPCM entry is written; the instruction pointer moves by the
instruction's length; and nothing else changes. That it moves so is the spec's decision D2, the
length a parameter (notes/assumptions/1.md, 22.md). The token's width and place (D15) and the SECS
identifier (D27) are the spec's decisions (notes/assumptions/20.md, 27.md). -/
def Obligations.EaugCompletes : Prop :=
  ∀ (s : State) (o : EaugOperands), EaugSucceeds s o →
    exec .enclsEaug s = .next
      { s with
        mem :=
          if s.cfg.cpuid.cetSs = true ∧ o.attrs.pt = .ssFirst then
            writeNat (fillZero s.mem o.pT 4096) (o.pT + 0xFF8) 8
              ((o.pageinfo s).linaddr.toNat + 0x1000 +
                (if (s.secsAt o.pS).mode64bit then 1 else 0))
          else fillZero s.mem o.pT 4096
        epcm :=
          Table.set unlistedEpcm s.epcm (frameOf o.pT)
            { valid := true
              r := o.attrs.r
              w := o.attrs.w
              x := o.attrs.x
              pt := o.attrs.pt
              enclaveAddress := (o.pageinfo s).linaddr
              blocked := false
              pending := true
              modified := false
              pr := false
              enclaveSecs := o.pS }
        pc := s.pc + BitVec.ofNat 64 s.cfg.enclsLength }

/-- A step from a state with no VM exit delivered ends in success exactly when the bytes at the
instruction pointer are the bare three of the instruction and the premises of success hold. The
premises hold the spec's decisions on admission and refusals (notes/assumptions/8.md, 21.md, 22.md,
23.md, 24.md, 25.md, 26.md, 27.md). -/
def Obligations.StepSucceedsExactlyWhen : Prop :=
  ∀ s : State, s.vmExited = false →
    ((∃ t, step s = .next t ∧ t.vmExited = false) ↔
      readBytes s.code s.pc.toNat 3 = [0x0F#8, 0x01#8, 0xCF#8] ∧ ∃ o, EaugSucceeds s o)

/-- After success the target page holds 4096 zero bytes, but for its last 8 where a token is due.
The token's place is the spec's decision D15 (notes/assumptions/27.md). -/
def Obligations.TargetPageZeroed : Prop :=
  ∀ (s : State) (o : EaugOperands), s.mem.wf = true → EaugSucceeds s o →
    ∃ t, exec .enclsEaug s = .next t ∧
      (∀ i < 0xFF8, t.byteAt (o.pT + i) = 0#8) ∧
      (¬ TokenDue s o → ∀ i < 4096, t.byteAt (o.pT + i) = 0#8)

/-- Where a token is due, the last 8 bytes of the page read, little-endian, as `LINADDR + 0x1000`
plus the enclave's `MODE64BIT`; each byte holds its own 8 bits of that number. The byte order and
the store's width and place are the spec's decisions D1 and D15 (notes/assumptions/16.md, 27.md). -/
def Obligations.TokenStored : Prop :=
  ∀ (s : State) (o : EaugOperands), s.mem.wf = true → EaugSucceeds s o → TokenDue s o →
    ∃ t, exec .enclsEaug s = .next t ∧
      readNat t.mem (o.pT + 0xFF8) 8 = (o.pageinfo s).linaddr.toNat + 0x1000 +
        (if (s.secsAt o.pS).mode64bit then 1 else 0) ∧
      ∀ i < 8, t.byteAt (o.pT + 0xFF8 + i) = BitVec.ofNat 8
        (((o.pageinfo s).linaddr.toNat + 0x1000 +
          (if (s.secsAt o.pS).mode64bit then 1 else 0)) / 256 ^ i)

/-- After success the target page's EPCM entry holds its eleven fields, pending and valid, with the
permissions read and write and a type of the three the leaf gives; every other page's entry is as it
was. The SECS identifier is the SECS page's physical address by the spec's decision D27. See
notes/assumptions/20.md. -/
def Obligations.EpcmEntryWritten : Prop :=
  ∀ (s : State) (o : EaugOperands), Table.wf unlistedEpcm s.epcm = true → EaugSucceeds s o →
    ∃ t, exec .enclsEaug s = .next t ∧
      t.epcmAt o.pT =
        { valid := true
          r := true
          w := true
          x := false
          pt := o.attrs.pt
          enclaveAddress := (o.pageinfo s).linaddr
          blocked := false
          pending := true
          modified := false
          pr := false
          enclaveSecs := o.pS } ∧
      (o.attrs.pt = .reg ∨ o.attrs.pt = .ssFirst ∨ o.attrs.pt = .ssRest) ∧
      ∀ q : Nat, frameOf q ≠ frameOf o.pT → t.epcmAt q = s.epcmAt q

/-- Without a SECINFO the page gets the default attributes, and the processor's `CPUID.(EAX=12H,
ECX=1):EAX[6]` is not consulted. -/
def Obligations.DefaultAttributesGiven : Prop :=
  ∀ (s : State) (o : EaugOperands) (b : Bool), Table.wf unlistedEpcm s.epcm = true →
    EaugSucceeds s o → (o.pageinfo s).secinfo = 0#64 →
    ∃ t, exec .enclsEaug
        { s with cfg := { s.cfg with cpuid := { s.cfg.cpuid with leaf12Eax6 := b } } } = .next t ∧
      (t.epcmAt o.pT).r = true ∧ (t.epcmAt o.pT).w = true ∧ (t.epcmAt o.pT).x = false ∧
      (t.epcmAt o.pT).pt = .reg

/-- The leaf's frame: after success every register, flag, mode bit, VMCS field, SECS record, lock,
parameter and code byte is as it was, every byte outside the 4096 of the target page is as it was,
and every EPCM entry but the target's is. The target is where the translation of `DS:RCX` for a
write goes. The frame is the spec's own inference, that the SECS records and the locks stay is its
decisions D23 and D12 (notes/assumptions/13.md, 19.md), that the parameters stay is the model's
choice (notes/assumptions/4.md). -/
def Obligations.SuccessFrame : Prop :=
  ∀ (s t : State) (laT : LinAddr) (pT : Nat), s.mem.wf = true →
    Table.wf unlistedEpcm s.epcm = true → s.vmExited = false →
    exec .enclsEaug s = .next t → t.vmExited = false →
    lin s (effectiveAddress s.cfg.mode s.rcx) 4096 = some laT →
    translate s.cfg laT .write = some pT →
    SameInputs s t ∧ t.vmcs = s.vmcs ∧
      (∀ a : Nat, (a < pT ∨ pT + 4096 ≤ a) → t.byteAt a = s.byteAt a) ∧
      ∀ q : Nat, frameOf q ≠ frameOf pT → t.epcmAt q = s.epcmAt q

/-- The leaf writes no ordinary memory: every byte outside the EPC is as it was, where the
translation keeps page offsets. The premise on the translation is the model's
(notes/assumptions/29.md). -/
def Obligations.OrdinaryMemoryUnchanged : Prop :=
  ∀ s t : State, s.mem.wf = true → s.cfg.keepsPageOffsets = true →
    exec .enclsEaug s = .next t →
    ∀ a : Nat, inEpc s.cfg a = false → t.byteAt a = s.byteAt a

/-! ### What each outcome says -/

/-- A VM exit is delivered in one situation only: the target page is in use, in VMX non-root
operation with the EPC virtualization extensions; and it leaves memory, the EPCM and the instruction
pointer as they were. Decisions D11, D18 and D32 (notes/assumptions/7.md, 19.md). -/
def Obligations.VmExitOnlyOnConflict : Prop :=
  ∀ s t : State, s.vmExited = false → exec .enclsEaug s = .next t → t.vmExited = true →
    SameInputs s t ∧ t.mem = s.mem ∧ t.epcm = s.epcm ∧ t.pc = s.pc ∧
      s.vmxNonRoot = true ∧ s.epcVirtExt = true ∧
      ∃ o, SecsResolved s o ∧ s.lockAt o.pT ≠ .free ∧
        t.vmcs.guestPhysicalAddress = o.pT ∧ t.vmcs.guestLinearAddress = o.laT

/-- Every `#GP(0)` has one of its causes, the first in the spec's order whose condition holds. The
place of the privilege, segment and canonical tests is decisions D3 and D7 (notes/assumptions/17.md,
18.md). -/
def Obligations.GpHasListedCause : Prop :=
  ∀ s : State, exec .enclsEaug s = .fault .gp0 →
    (Admitted s ∧ s.cpl ≠ 0#2) ∨
    (Privileged s ∧ ∀ la, lin s (effectiveAddress s.cfg.mode s.rbx) 32 = some la →
      la.toNat % 32 ≠ 0) ∨
    ∃ o,
      (PageinfoAddressed s o ∧ ∀ la, lin s (effectiveAddress s.cfg.mode s.rcx) 4096 = some la →
        la.toNat % 4096 ≠ 0) ∨
      (PageinfoRead s o ∧ (o.pageinfo s).secinfo ≠ 0#64 ∧
        ∀ la, lin s (o.pageinfo s).secinfo 64 = some la → la.toNat % 64 ≠ 0) ∨
      (SecinfoAddressed s o ∧ ∀ la, lin s (o.pageinfo s).secs 4096 = some la →
        la.toNat % 4096 ≠ 0 ∨ (o.pageinfo s).linaddr.toNat % 4096 ≠ 0) ∨
      (SecsAddressed s o ∧ (o.pageinfo s).srcpge ≠ 0#64) ∨
      (SecsResolved s o ∧ s.lockAt o.pT ≠ .free ∧ ¬ (s.vmxNonRoot = true ∧ s.epcVirtExt = true)) ∨
      (SecinfoRead s o ∧ (o.pageinfo s).secinfo ≠ 0#64 ∧
        ¬ SecinfoAccepted s (secinfoAt s o.pSi)) ∨
      (AttributesSettled s o ∧ isShadowStack o.attrs.pt = true ∧ s.cr4Cet = false) ∨
      (CetEnabled s o ∧ s.lockAt o.pS = .exclusive) ∨
      (SecsValid s o ∧ (s.secsAt o.pS).initialized = false) ∨
      (EnclaveInitialized s o ∧
        ((o.pageinfo s).linaddr.toNat < (s.secsAt o.pS).baseaddr.toNat ∨
          (s.secsAt o.pS).baseaddr.toNat + (s.secsAt o.pS).size.toNat ≤
            (o.pageinfo s).linaddr.toNat)) ∨
      (LinaddrInRange s o ∧ isShadowStack o.attrs.pt = true ∧
        atRangeEnd (o.pageinfo s).linaddr (s.secsAt o.pS))

/-- Every `#PF` is raised at one of the eight sites, with that site's error code and the linear
address of the operand the site names. The place of the translation faults is decision D8
(notes/assumptions/18.md), the codes are open (notes/assumptions/5.md). -/
def Obligations.PfHasListedSite : Prop :=
  ∀ (s : State) (la : LinAddr) (code : BitVec 32), exec .enclsEaug s = .fault (.pf la code) →
    ∃ o,
      (TargetAddressed s o ∧ translate s.cfg o.laT .write = none ∧ la = o.laT ∧
        code = Config.pfErrorCode .targetTranslate) ∨
      (TargetAddressed s o ∧ translate s.cfg o.laT .write = some o.pT ∧
        inEpc s.cfg o.pT = false ∧ la = o.laT ∧ code = Config.pfErrorCode .targetNotEpc) ∨
      (TargetResolved s o ∧ translate s.cfg o.laPi .read = none ∧ la = o.laPi ∧
        code = Config.pfErrorCode .pageinfoTranslate) ∨
      (SourceAbsent s o ∧ translate s.cfg o.laS .readwrite = none ∧ la = o.laS ∧
        code = Config.pfErrorCode .secsTranslate) ∨
      (SourceAbsent s o ∧ translate s.cfg o.laS .readwrite = some o.pS ∧
        inEpc s.cfg o.pS = false ∧ la = o.laS ∧ code = Config.pfErrorCode .secsNotEpc) ∨
      (TargetUnlocked s o ∧ (s.epcmAt o.pT).valid = true ∧ la = o.laT ∧
        code = Config.pfErrorCode .targetValid) ∨
      (TargetFree s o ∧ (o.pageinfo s).secinfo ≠ 0#64 ∧ translate s.cfg o.laSi .read = none ∧
        la = o.laSi ∧ code = Config.pfErrorCode .secinfoTranslate) ∨
      (SecsDistinct s o ∧ ((s.epcmAt o.pS).valid = false ∨ (s.epcmAt o.pS).pt ≠ .secs) ∧
        la = o.laS ∧ code = Config.pfErrorCode .secsInvalid)

/-- The leaf refuses for the ten reasons the spec lists for it and no other, each in its situation.
Each is a decision of the spec (notes/assumptions/21.md, 22.md, 23.md, 24.md, 25.md, 26.md, 27.md).
-/
def Obligations.RefusalHasListedReason : Prop :=
  ∀ (s : State) (r : Refusal), exec .enclsEaug s = .refused r →
    (r = .otherLeaf ∧ s.eax ≠ 0x0D#32) ∨
    (r = .featureAbsent ∧ s.eax = 0x0D#32 ∧ ¬ LeafAvailable s.cfg) ∨
    (r = .pcWrap ∧ s.eax = 0x0D#32 ∧ LeafAvailable s.cfg ∧
      2 ^ addressWidth s.cfg.mode ≤ s.pc.toNat + s.cfg.enclsLength) ∨
    ∃ o,
      (r = .pageinfoInEpc ∧ TargetResolved s o ∧ translate s.cfg o.laPi .read = some o.pPi ∧
        inEpc s.cfg o.pPi = true) ∨
      (r = .widePointer ∧ TargetResolved s o ∧ translate s.cfg o.laPi .read = some o.pPi ∧
        inEpc s.cfg o.pPi = false ∧ s.cfg.mode = .mode32 ∧
        (2 ^ 32 ≤ (o.pageinfo s).secs.toNat ∨ 2 ^ 32 ≤ (o.pageinfo s).secinfo.toNat)) ∨
      (r = .secinfoInEpc ∧ TargetFree s o ∧ (o.pageinfo s).secinfo ≠ 0#64 ∧
        translate s.cfg o.laSi .read = some o.pSi ∧ inEpc s.cfg o.pSi = true) ∨
      (r = .secinfoStateBits ∧ SecinfoRead s o ∧ (o.pageinfo s).secinfo ≠ 0#64 ∧
        SecinfoAccepted s (secinfoAt s o.pSi) ∧ (secinfoAt s o.pSi).stateNonzero = true) ∨
      (r = .targetIsSecs ∧ SecsUnlocked s o ∧ o.pS = o.pT) ∨
      (r = .rangeOverflow ∧ EnclaveInitialized s o ∧
        (s.secsAt o.pS).baseaddr.toNat ≤ (o.pageinfo s).linaddr.toNat ∧
        2 ^ 64 ≤ (s.secsAt o.pS).baseaddr.toNat + (s.secsAt o.pS).size.toNat) ∨
      (r = .tokenOverflow ∧ NotAtRangeEnd s o ∧ TokenDue s o ∧
        2 ^ 64 ≤ (o.pageinfo s).linaddr.toNat + 0x1000)

/-! ### What the leaf does not depend on -/

/-- The leaf reads no flag and writes none, on any outcome: with any other flags it ends the same
way, and its next state, if it has one, has those flags. -/
def Obligations.FlagsNeitherReadNorWritten : Prop :=
  ∀ (s : State) (f : Word),
    exec .enclsEaug { s with flags := f } =
      mapNext (fun t => { t with flags := f }) (exec .enclsEaug s)

/-- The leaf neither reads nor writes the general registers it does not name. That it reads and
writes none is the spec's inference from the Operation section. -/
def Obligations.OtherRegistersNeitherReadNorWritten : Prop :=
  ∀ (s : State) (rs : List Word),
    exec .enclsEaug { s with otherRegs := rs } =
      mapNext (fun t => { t with otherRegs := rs }) (exec .enclsEaug s)

/-- The upper half of `RAX` takes no part in any mode; in 32-bit mode neither do those of `RBX` and
`RCX` (the spec's decision D6). See notes/assumptions/23.md. -/
def Obligations.UpperHalvesIgnored : Prop :=
  (∀ (s : State) (v : Word), v.setWidth 32 = s.eax →
      exec .enclsEaug { s with rax := v } =
        mapNext (fun t => { t with rax := v }) (exec .enclsEaug s)) ∧
    ∀ (s : State) (b c : Word), s.cfg.mode = .mode32 →
      b.setWidth 32 = s.rbx.setWidth 32 → c.setWidth 32 = s.rcx.setWidth 32 →
      exec .enclsEaug { s with rbx := b, rcx := c } =
        mapNext (fun t => { t with rbx := b, rcx := c }) (exec .enclsEaug s)

/-- The target page's old contents do not matter: two states that differ in nothing else end, where
the leaf succeeds, in states with the same bytes at every address and the same EPCM. The premise on
the configuration is the model's (notes/assumptions/29.md). -/
def Obligations.OldPageContentsIrrelevant : Prop :=
  ∀ (s : State) (o : EaugOperands) (m : Memory), s.mem.wf = true → m.wf = true →
    s.cfg.wf = true → EaugSucceeds s o →
    (∀ a : Nat, frameOf a ≠ frameOf o.pT → readByte m a = s.byteAt a) →
    ∃ t t', exec .enclsEaug s = .next t ∧ exec .enclsEaug { s with mem := m } = .next t' ∧
      (∀ a : Nat, t'.byteAt a = t.byteAt a) ∧ { t' with mem := t.mem } = t

/-- Running the leaf again with the same operands raises `#PF` on the target, which the first run
made valid. The premise on the configuration is the model's (notes/assumptions/29.md). -/
def Obligations.SecondRunRaisesPf : Prop :=
  ∀ (s t : State) (o : EaugOperands), s.mem.wf = true →
    Table.wf unlistedEpcm s.epcm = true → s.cfg.wf = true → EaugSucceeds s o →
    exec .enclsEaug s = .next t → t.pc.toNat + s.cfg.enclsLength < 2 ^ addressWidth s.cfg.mode →
    exec .enclsEaug t = .fault (.pf o.laT (Config.pfErrorCode .targetValid))

/-! ### Memory -/

/-- A number stored little-endian is read back, its byte `i` at `a + i` holds its bits `8i+7 : 8i`,
and every byte outside the store is as it was. The byte order is the spec's decision D1
(notes/assumptions/16.md). -/
def Obligations.StoreIsLittleEndian : Prop :=
  ∀ (m : Memory) (a n v : Nat), m.wf = true →
    readNat (writeNat m a n v) a n = v % 256 ^ n ∧
      (∀ i < n, readByte (writeNat m a n v) (a + i) = BitVec.ofNat 8 (v / 256 ^ i)) ∧
      ∀ b : Nat, (b < a ∨ a + n ≤ b) → readByte (writeNat m a n v) b = readByte m b

/-! ### Reset and invariants -/

/-- What reset leaves. THE MODEL'S CHOICE, not the spec's, which gives no reset value
(notes/assumptions/2.md, 3.md, 11.md, 12.md): the instruction pointer FFF0H, the flags word 2, the
DS base 0 and limit FFFFH, privilege level 0, `CR4.CET` and the virtualization bits clear, `RAX`,
`RBX`, `RCX` and the five VMCS fields 0, no other general register listed, every byte of memory 0,
no EPC page valid or locked, no SECS initialized, and no VM exit delivered. -/
def Obligations.ResetLeaves : Prop :=
  State.reset.pc = 0xFFF0#64 ∧ State.reset.flags = 0x2#64 ∧
    State.reset.ds.base = 0#32 ∧ State.reset.ds.limit = 0xFFFF#32 ∧
    State.reset.cpl = 0#2 ∧ State.reset.cr4Cet = false ∧ State.reset.vmxNonRoot = false ∧
    State.reset.epcVirtExt = false ∧ State.reset.vmExited = false ∧
    State.reset.rax = 0#64 ∧ State.reset.rbx = 0#64 ∧ State.reset.rcx = 0#64 ∧
    State.reset.otherRegs = [] ∧
    State.reset.vmcs =
      { exitReason := 0
        qualificationCode := 0
        qualificationError := 0
        guestPhysicalAddress := 0
        guestLinearAddress := 0#64 } ∧
    (∀ a : Nat, State.reset.byteAt a = 0#8) ∧
    (∀ p : Nat, (State.reset.epcmAt p).valid = false) ∧
    (∀ p : Nat, (State.reset.secsAt p).initialized = false) ∧
    ∀ p : Nat, State.reset.lockAt p = .free

/-- Reset meets the invariants that every step keeps, and its configuration is well formed; no step
changes the configuration (`StepKeepsInputs`). The values of reset are the model's choice
(notes/assumptions/2.md, 3.md, 4.md). -/
def Obligations.ResetMeetsInvariants : Prop :=
  State.reset.storageWf = true ∧ State.reset.cfg.wf = true ∧ State.reset.pcFits ∧
    State.reset.pendingPagesOwned ∧ State.reset.pendingPagesZero

/-- A step leaves every register, flag, mode bit, SECS record, lock, parameter and code byte as it
was: only the instruction pointer, memory, the EPCM, the VMCS fields and the model's own mark of a
VM exit can change. The frame is the spec's own inference, that the SECS records and the locks stay
is its decisions D23 and D12 (notes/assumptions/13.md, 19.md), that the parameters stay and the mark
are the model's choice (notes/assumptions/4.md, 7.md). -/
def Obligations.StepKeepsInputs : Prop :=
  ∀ s t : State, step s = .next t → SameInputs s t

/-- Every step keeps the canonical form of memory and of the tables. The form is the model's
(notes/assumptions/11.md, 12.md). -/
def Obligations.StepKeepsCanonicalForm : Prop :=
  ∀ s t : State, s.storageWf = true → step s = .next t → t.storageWf = true

/-- Every step leaves an instruction pointer of `AW` bits, moved by the instruction's length without
wrapping on success and unmoved on a VM exit; the premise that it fitted before is not needed. The
length, a parameter, and the refusal near the top are the spec's decision D2
(notes/assumptions/1.md, 22.md). -/
def Obligations.StepKeepsPcInRange : Prop :=
  ∀ s t : State, step s = .next t →
    t.pcFits ∧ (t.vmExited = false → t.pc.toNat = s.pc.toNat + s.cfg.enclsLength) ∧
      (t.vmExited = true → t.pc = s.pc)

/-- Every step keeps this: each valid pending page lies in the EPC, has the attributes the leaf
gives, and belongs to a valid, initialized SECS whose range holds its address. The SECS identifier
is decision D27 (notes/assumptions/20.md). -/
def Obligations.StepKeepsPendingPagesOwned : Prop :=
  ∀ s t : State, Table.wf unlistedEpcm s.epcm = true → s.pendingPagesOwned →
    step s = .next t → t.pendingPagesOwned

/-- Every step keeps this, where the translation keeps page offsets: each valid pending page holds
only zeros, but for the last 8 bytes of a first shadow-stack page. The premise on the translation is
the model's (notes/assumptions/29.md). -/
def Obligations.StepKeepsPendingPagesZero : Prop :=
  ∀ s t : State, s.storageWf = true → s.cfg.keepsPageOffsets = true →
    s.pendingPagesZero → step s = .next t → t.pendingPagesZero
end

