-- ==== Sys2Proof/Laws/Decode.lean ====
section
/-!
SUPPORT. What the decoder can answer, said once.
-/

namespace Sys2Proof

/-- The bare form is read exactly from the bytes of an instruction. -/
theorem decodeBare_eq_some (bs : List Byte) (i : Instr) (rest : List Byte) :
    decodeBare bs = some (i, rest) ↔ bs = encode i ++ rest := by
  cases i
  constructor
  · intro h
    match bs, h with
    | b0 :: b1 :: b2 :: r, h =>
      simp only [decodeBare] at h
      split at h
      · rename_i hb
        obtain ⟨rfl, rfl, rfl⟩ := hb
        simp_all [encode, enclsBytes]
      · cases h
    | [], h => cases h
    | [_], h => cases h
    | [_, _], h => cases h
  · rintro rfl
    simp [encode, enclsBytes, decodeBare]

theorem decode_cons (m : Mode) (b : Byte) (bs : List Byte) :
    decode m (b :: bs) =
      match decodeBare (b :: bs) with
      | some (i, rest) => .instr i rest
      | none =>
        if isPrefix m b then
          match decode m bs with
          | .otherBytes => .otherBytes
          | _ => .prefixedForm
        else .otherBytes := by
  rfl

/-- An instruction is decoded from its bare form only. -/
theorem decode_eq_instr_imp (m : Mode) (bs : List Byte) (i : Instr) (rest : List Byte)
    (h : decode m bs = .instr i rest) : decodeBare bs = some (i, rest) := by
  cases bs with
  | nil => cases h
  | cons b bs =>
    rw [decode_cons] at h
    split at h
    · rename_i j r hj
      cases h
      exact hj
    · split at h
      · split at h <;> cases h
      · cases h

/-- The byte that opens `ENCLS` is no prefix. -/
theorem isPrefix_opcode (m : Mode) : isPrefix m 0x0F#8 = false := by
  cases m <;> decide

theorem bytesOfWord_length (w k : Nat) : (bytesOfWord w k).length = k := by
  induction k with
  | zero => rfl
  | succ k ih => simp [bytesOfWord, ih]

end Sys2Proof
end

