-- ==== Sys2Proof/Laws/State.lean ====
section
/-!
SUPPORT. One lemma per field of State and per named update of it, true by `rfl`.
-/

namespace Sys2Proof.Machine

/-- Memory after reset has the canonical form. -/
theorem State.reset_mem_wf : State.reset.mem.wf = true := rfl

/-! ### `State.setEax` -/

@[simp] theorem State.setEax_cfg (s : State) (v : BitVec 32) :
    (s.setEax v).cfg = s.cfg := rfl

@[simp] theorem State.setEax_rax (s : State) (v : BitVec 32) :
    (s.setEax v).rax = (s.rax &&& 0xFFFFFFFF00000000#64) ||| v.setWidth 64 := rfl

@[simp] theorem State.setEax_rbx (s : State) (v : BitVec 32) :
    (s.setEax v).rbx = s.rbx := rfl

@[simp] theorem State.setEax_rcx (s : State) (v : BitVec 32) :
    (s.setEax v).rcx = s.rcx := rfl

@[simp] theorem State.setEax_otherRegs (s : State) (v : BitVec 32) :
    (s.setEax v).otherRegs = s.otherRegs := rfl

@[simp] theorem State.setEax_pc (s : State) (v : BitVec 32) :
    (s.setEax v).pc = s.pc := rfl

@[simp] theorem State.setEax_flags (s : State) (v : BitVec 32) :
    (s.setEax v).flags = s.flags := rfl

@[simp] theorem State.setEax_cpl (s : State) (v : BitVec 32) :
    (s.setEax v).cpl = s.cpl := rfl

@[simp] theorem State.setEax_ds (s : State) (v : BitVec 32) :
    (s.setEax v).ds = s.ds := rfl

@[simp] theorem State.setEax_cr4Cet (s : State) (v : BitVec 32) :
    (s.setEax v).cr4Cet = s.cr4Cet := rfl

@[simp] theorem State.setEax_vmxNonRoot (s : State) (v : BitVec 32) :
    (s.setEax v).vmxNonRoot = s.vmxNonRoot := rfl

@[simp] theorem State.setEax_epcVirtExt (s : State) (v : BitVec 32) :
    (s.setEax v).epcVirtExt = s.epcVirtExt := rfl

@[simp] theorem State.setEax_vmcs (s : State) (v : BitVec 32) :
    (s.setEax v).vmcs = s.vmcs := rfl

@[simp] theorem State.setEax_mem (s : State) (v : BitVec 32) :
    (s.setEax v).mem = s.mem := rfl

@[simp] theorem State.setEax_epcm (s : State) (v : BitVec 32) :
    (s.setEax v).epcm = s.epcm := rfl

@[simp] theorem State.setEax_secs (s : State) (v : BitVec 32) :
    (s.setEax v).secs = s.secs := rfl

@[simp] theorem State.setEax_locks (s : State) (v : BitVec 32) :
    (s.setEax v).locks = s.locks := rfl

@[simp] theorem State.setEax_code (s : State) (v : BitVec 32) :
    (s.setEax v).code = s.code := rfl

@[simp] theorem State.setEax_vmExited (s : State) (v : BitVec 32) :
    (s.setEax v).vmExited = s.vmExited := rfl

/-! ### `State.deliverVmExit` -/

@[simp] theorem State.deliverVmExit_cfg (s : State) (gpa : Nat) (gla : LinAddr) :
    (s.deliverVmExit gpa gla).cfg = s.cfg := rfl

@[simp] theorem State.deliverVmExit_rax (s : State) (gpa : Nat) (gla : LinAddr) :
    (s.deliverVmExit gpa gla).rax = s.rax := rfl

@[simp] theorem State.deliverVmExit_rbx (s : State) (gpa : Nat) (gla : LinAddr) :
    (s.deliverVmExit gpa gla).rbx = s.rbx := rfl

@[simp] theorem State.deliverVmExit_rcx (s : State) (gpa : Nat) (gla : LinAddr) :
    (s.deliverVmExit gpa gla).rcx = s.rcx := rfl

@[simp] theorem State.deliverVmExit_otherRegs (s : State) (gpa : Nat) (gla : LinAddr) :
    (s.deliverVmExit gpa gla).otherRegs = s.otherRegs := rfl

@[simp] theorem State.deliverVmExit_pc (s : State) (gpa : Nat) (gla : LinAddr) :
    (s.deliverVmExit gpa gla).pc = s.pc := rfl

@[simp] theorem State.deliverVmExit_flags (s : State) (gpa : Nat) (gla : LinAddr) :
    (s.deliverVmExit gpa gla).flags = s.flags := rfl

@[simp] theorem State.deliverVmExit_cpl (s : State) (gpa : Nat) (gla : LinAddr) :
    (s.deliverVmExit gpa gla).cpl = s.cpl := rfl

@[simp] theorem State.deliverVmExit_ds (s : State) (gpa : Nat) (gla : LinAddr) :
    (s.deliverVmExit gpa gla).ds = s.ds := rfl

@[simp] theorem State.deliverVmExit_cr4Cet (s : State) (gpa : Nat) (gla : LinAddr) :
    (s.deliverVmExit gpa gla).cr4Cet = s.cr4Cet := rfl

@[simp] theorem State.deliverVmExit_vmxNonRoot (s : State) (gpa : Nat) (gla : LinAddr) :
    (s.deliverVmExit gpa gla).vmxNonRoot = s.vmxNonRoot := rfl

@[simp] theorem State.deliverVmExit_epcVirtExt (s : State) (gpa : Nat) (gla : LinAddr) :
    (s.deliverVmExit gpa gla).epcVirtExt = s.epcVirtExt := rfl

@[simp] theorem State.deliverVmExit_vmcs (s : State) (gpa : Nat) (gla : LinAddr) :
    (s.deliverVmExit gpa gla).vmcs =
      { exitReason := Config.sgxConflict
        qualificationCode := Config.epcPageConflictException
        qualificationError := 0
        guestPhysicalAddress := gpa
        guestLinearAddress := gla } := rfl

@[simp] theorem State.deliverVmExit_mem (s : State) (gpa : Nat) (gla : LinAddr) :
    (s.deliverVmExit gpa gla).mem = s.mem := rfl

@[simp] theorem State.deliverVmExit_epcm (s : State) (gpa : Nat) (gla : LinAddr) :
    (s.deliverVmExit gpa gla).epcm = s.epcm := rfl

@[simp] theorem State.deliverVmExit_secs (s : State) (gpa : Nat) (gla : LinAddr) :
    (s.deliverVmExit gpa gla).secs = s.secs := rfl

@[simp] theorem State.deliverVmExit_locks (s : State) (gpa : Nat) (gla : LinAddr) :
    (s.deliverVmExit gpa gla).locks = s.locks := rfl

@[simp] theorem State.deliverVmExit_code (s : State) (gpa : Nat) (gla : LinAddr) :
    (s.deliverVmExit gpa gla).code = s.code := rfl

@[simp] theorem State.deliverVmExit_vmExited (s : State) (gpa : Nat) (gla : LinAddr) :
    (s.deliverVmExit gpa gla).vmExited = true := rfl

/-! ### `eaugCommit` -/

@[simp] theorem eaugCommit_cfg (s : State) (p : EaugPlan) :
    (eaugCommit s p).cfg = s.cfg := rfl

@[simp] theorem eaugCommit_rax (s : State) (p : EaugPlan) :
    (eaugCommit s p).rax = s.rax := rfl

@[simp] theorem eaugCommit_rbx (s : State) (p : EaugPlan) :
    (eaugCommit s p).rbx = s.rbx := rfl

@[simp] theorem eaugCommit_rcx (s : State) (p : EaugPlan) :
    (eaugCommit s p).rcx = s.rcx := rfl

@[simp] theorem eaugCommit_otherRegs (s : State) (p : EaugPlan) :
    (eaugCommit s p).otherRegs = s.otherRegs := rfl

@[simp] theorem eaugCommit_pc (s : State) (p : EaugPlan) :
    (eaugCommit s p).pc = nextPc s.cfg s.pc := rfl

@[simp] theorem eaugCommit_flags (s : State) (p : EaugPlan) :
    (eaugCommit s p).flags = s.flags := rfl

@[simp] theorem eaugCommit_cpl (s : State) (p : EaugPlan) :
    (eaugCommit s p).cpl = s.cpl := rfl

@[simp] theorem eaugCommit_ds (s : State) (p : EaugPlan) :
    (eaugCommit s p).ds = s.ds := rfl

@[simp] theorem eaugCommit_cr4Cet (s : State) (p : EaugPlan) :
    (eaugCommit s p).cr4Cet = s.cr4Cet := rfl

@[simp] theorem eaugCommit_vmxNonRoot (s : State) (p : EaugPlan) :
    (eaugCommit s p).vmxNonRoot = s.vmxNonRoot := rfl

@[simp] theorem eaugCommit_epcVirtExt (s : State) (p : EaugPlan) :
    (eaugCommit s p).epcVirtExt = s.epcVirtExt := rfl

@[simp] theorem eaugCommit_vmcs (s : State) (p : EaugPlan) :
    (eaugCommit s p).vmcs = s.vmcs := rfl

@[simp] theorem eaugCommit_mem (s : State) (p : EaugPlan) :
    (eaugCommit s p).mem = eaugMemory s p := rfl

@[simp] theorem eaugCommit_epcm (s : State) (p : EaugPlan) :
    (eaugCommit s p).epcm = setEpcm s.epcm p.target (newEpcmEntry p) := rfl

@[simp] theorem eaugCommit_secs (s : State) (p : EaugPlan) :
    (eaugCommit s p).secs = s.secs := rfl

@[simp] theorem eaugCommit_locks (s : State) (p : EaugPlan) :
    (eaugCommit s p).locks = s.locks := rfl

@[simp] theorem eaugCommit_code (s : State) (p : EaugPlan) :
    (eaugCommit s p).code = s.code := rfl

@[simp] theorem eaugCommit_vmExited (s : State) (p : EaugPlan) :
    (eaugCommit s p).vmExited = s.vmExited := rfl

end Sys2Proof.Machine
end

