-- ==== Sys2Proof/Laws/Table.lean ====
section
/-!
SUPPORT. The laws of sparse tables and of memory: what a read gives after a write, that a write
leaves the rest alone, and that every operation keeps the canonical form.
-/

namespace Sys2Proof.Machine

variable {α : Type}

/-! ### Tables -/

@[simp] theorem Table.get_nil (d : α) (a : Nat) : Table.get d [] a = d := rfl

theorem Table.get_cons (d : α) (k : Nat) (v : α) (m : Table α) (a : Nat) :
    Table.get d ((k, v) :: m) a = if a = k then v else Table.get d m a := rfl

/-- A key below every listed key reads as the default. -/
theorem Table.get_of_all_gt (d : α) (m : Table α) (a : Nat)
    (h : ∀ c ∈ m, a < c.1) : Table.get d m a = d := by
  induction m with
  | nil => rfl
  | cons c m ih =>
    have hc : a ≠ c.1 := Nat.ne_of_lt (h c (by simp))
    rw [Table.get_cons, if_neg hc]
    exact ih fun c' hc' => h c' (by simp [hc'])

variable [DecidableEq α]

theorem Table.wf_cons (d : α) (k : Nat) (v : α) (m : Table α) :
    Table.wf d ((k, v) :: m) = true ↔
      v ≠ d ∧ (∀ c ∈ m, k < c.1) ∧ Table.wf d m = true := by
  simp [Table.wf, and_assoc]

/-- Every key of a table after a write is the written key or an old one. -/
theorem Table.mem_set_fst (d : α) (m : Table α) (a : Nat) (v : α) (c : Nat × α)
    (h : c ∈ Table.set d m a v) : c.1 = a ∨ ∃ c' ∈ m, c'.1 = c.1 := by
  induction m with
  | nil =>
    simp only [Table.set] at h
    split at h <;> simp_all
  | cons e m ih =>
    obtain ⟨k, w⟩ := e
    simp only [Table.set] at h
    split at h
    · split at h
      · exact .inr ⟨c, h, rfl⟩
      · rcases List.mem_cons.1 h with rfl | h
        · exact .inl rfl
        · exact .inr ⟨c, h, rfl⟩
    · split at h
      · rename_i hak
        split at h
        · exact .inr ⟨c, List.mem_cons_of_mem _ h, rfl⟩
        · rcases List.mem_cons.1 h with rfl | h
          · exact .inl rfl
          · exact .inr ⟨c, List.mem_cons_of_mem _ h, rfl⟩
      · rcases List.mem_cons.1 h with rfl | h
        · exact .inr ⟨(k, w), by simp, rfl⟩
        · rcases ih h with h | ⟨c', hc', he⟩
          · exact .inl h
          · exact .inr ⟨c', List.mem_cons_of_mem _ hc', he⟩

/-- A write keeps the canonical form. -/
theorem Table.wf_set (d : α) (m : Table α) (a : Nat) (v : α) (h : Table.wf d m = true) :
    Table.wf d (Table.set d m a v) = true := by
  induction m with
  | nil =>
    simp only [Table.set]
    split
    · rfl
    · rename_i hv
      exact (Table.wf_cons d a v []).2 ⟨hv, by simp, rfl⟩
  | cons e m ih =>
    obtain ⟨k, w⟩ := e
    obtain ⟨hw, hk, hm⟩ := (Table.wf_cons d k w m).1 h
    simp only [Table.set]
    split
    · rename_i hak
      split
      · exact h
      · rename_i hv
        refine (Table.wf_cons d a v _).2 ⟨hv, ?_, h⟩
        intro c hc
        rcases List.mem_cons.1 hc with rfl | hc
        · exact hak
        · exact Nat.lt_trans hak (hk c hc)
    · rename_i hak
      split
      · rename_i hak'
        split
        · exact hm
        · rename_i hv
          exact (Table.wf_cons d a v m).2 ⟨hv, fun c hc => hak' ▸ hk c hc, hm⟩
      · rename_i hne
        refine (Table.wf_cons d k w _).2 ⟨hw, ?_, ih hm⟩
        intro c hc
        rcases Table.mem_set_fst d m a v c hc with h' | ⟨c', hc', he⟩
        · omega
        · exact he ▸ hk c' hc'

/-- A read after a write: the written value at its key, the old value elsewhere. -/
theorem Table.get_set (d : α) (m : Table α) (a : Nat) (v : α) (b : Nat)
    (h : Table.wf d m = true) :
    Table.get d (Table.set d m a v) b = if b = a then v else Table.get d m b := by
  induction m with
  | nil =>
    simp only [Table.set]
    split
    · rename_i hv
      simp [hv]
    · rfl
  | cons e m ih =>
    obtain ⟨k, w⟩ := e
    obtain ⟨hw, hk, hm⟩ := (Table.wf_cons d k w m).1 h
    simp only [Table.set]
    split
    · rename_i hak
      have ha : Table.get d ((k, w) :: m) a = d := by
        apply Table.get_of_all_gt
        intro c hc
        rcases List.mem_cons.1 hc with rfl | hc
        · exact hak
        · exact Nat.lt_trans hak (hk c hc)
      split
      · rename_i hv
        by_cases hb : b = a
        · subst hb; simp [ha, hv]
        · simp [hb]
      · rw [Table.get_cons]
    · rename_i hak
      split
      · rename_i hak'
        subst hak'
        split
        · rename_i hv
          by_cases hb : b = a
          · subst hb
            simp [hv, Table.get_of_all_gt d m b hk]
          · simp [hb, Table.get_cons]
        · rw [Table.get_cons, Table.get_cons]
          split <;> rfl
      · rename_i hne
        rw [Table.get_cons, ih hm, Table.get_cons]
        by_cases hb : b = k
        · subst hb
          simp [Ne.symm hne]
        · simp [hb]

theorem Table.get_set_self (d : α) (m : Table α) (a : Nat) (v : α) (h : Table.wf d m = true) :
    Table.get d (Table.set d m a v) a = v := by
  rw [Table.get_set d m a v a h, if_pos rfl]

theorem Table.get_set_of_ne (d : α) (m : Table α) (a b : Nat) (v : α)
    (h : Table.wf d m = true) (hb : b ≠ a) :
    Table.get d (Table.set d m a v) b = Table.get d m b := by
  rw [Table.get_set d m a v b h, if_neg hb]

/-- Clearing a range keeps the canonical form. -/
theorem Table.wf_clear (d : α) (m : Table α) (a n : Nat) (h : Table.wf d m = true) :
    Table.wf d (Table.clear m a n) = true := by
  induction m with
  | nil => rfl
  | cons e m ih =>
    obtain ⟨k, w⟩ := e
    obtain ⟨hw, hk, hm⟩ := (Table.wf_cons d k w m).1 h
    rw [Table.clear, List.filter_cons]
    split
    · refine (Table.wf_cons d k w _).2 ⟨hw, ?_, ih hm⟩
      intro c hc
      exact hk c (List.mem_filter.1 hc).1
    · exact ih hm

omit [DecidableEq α] in
/-- A read after clearing a range: the default inside it, the old value elsewhere. -/
theorem Table.get_clear (d : α) (m : Table α) (a n b : Nat) :
    Table.get d (Table.clear m a n) b =
      if a ≤ b ∧ b < a + n then d else Table.get d m b := by
  induction m with
  | nil => simp [Table.clear]
  | cons e m ih =>
    obtain ⟨k, w⟩ := e
    rw [Table.clear, List.filter_cons]
    have ih' : Table.get d (List.filter
        (fun c : Nat × α => !(decide (a ≤ c.1) && decide (c.1 < a + n))) m) b =
        if a ≤ b ∧ b < a + n then d else Table.get d m b := ih
    split
    · rename_i hkeep
      rw [Table.get_cons, ih', Table.get_cons]
      simp only [Bool.not_eq_true', Bool.and_eq_false_iff, decide_eq_false_iff_not] at hkeep
      by_cases hb : b = k
      · subst hb
        have : ¬ (a ≤ b ∧ b < a + n) := by omega
        simp [this]
      · simp [hb]
    · rename_i hdrop
      rw [ih', Table.get_cons]
      simp only [Bool.not_eq_true', Bool.not_eq_false, Bool.and_eq_true, decide_eq_true_eq] at hdrop
      by_cases hb : b = k
      · subst hb
        simp [hdrop]
      · simp [hb]

/-! ### Memory -/

theorem writeByte_wf (m : Memory) (a : Nat) (b : Byte) (h : m.wf = true) :
    Memory.wf (writeByte m a b) = true := Table.wf_set _ m a b h

theorem readByte_writeByte (m : Memory) (a : Nat) (v : Byte) (b : Nat)
    (h : m.wf = true) :
    readByte (writeByte m a v) b = if b = a then v else readByte m b :=
  Table.get_set _ m a v b h

theorem fillZero_wf (m : Memory) (a : Nat) (n : Nat) (h : m.wf = true) :
    Memory.wf (fillZero m a n) = true := Table.wf_clear _ m a n h

/-- The zero fill writes zero to its range and nothing elsewhere (40_eaug.md R92). -/
theorem readByte_fillZero (m : Memory) (a : Nat) (n : Nat) (b : Nat) :
    readByte (fillZero m a n) b = if a ≤ b ∧ b < a + n then 0#8 else readByte m b :=
  Table.get_clear _ m a n b

theorem writeNat_wf (m : Memory) (a : Nat) (n v : Nat) (h : m.wf = true) :
    Memory.wf (writeNat m a n v) = true := by
  induction n generalizing m a v with
  | zero => exact h
  | succ n ih => exact ih _ _ _ (writeByte_wf m a _ h)

theorem writeBytes_wf (m : Memory) (a : Nat) (bs : List Byte) (h : m.wf = true) :
    Memory.wf (writeBytes m a bs) = true := by
  induction bs generalizing m a with
  | nil => exact h
  | cons b bs ih => exact ih _ _ (writeByte_wf m a b h)

/-- A store leaves every byte outside its range alone. -/
theorem readByte_writeNat_of_outside (m : Memory) (a : Nat) (n v : Nat) (b : Nat)
    (h : m.wf = true) (hb : b < a ∨ a + n ≤ b) :
    readByte (writeNat m a n v) b = readByte m b := by
  induction n generalizing m a v with
  | zero => rfl
  | succ n ih =>
    rw [writeNat, ih _ _ _ (writeByte_wf m a _ h) (by omega), readByte_writeByte m a _ b h,
      if_neg (by omega)]

/-- Byte `i` of a stored number is its bits `8i+7 : 8i` (20_memory.md R45). -/
theorem readByte_writeNat_inside (m : Memory) (a : Nat) (n v i : Nat)
    (h : m.wf = true) (hi : i < n) :
    readByte (writeNat m a n v) (a + i) = BitVec.ofNat 8 (v / 256 ^ i) := by
  induction n generalizing m a v i with
  | zero => omega
  | succ n ih =>
    rw [writeNat]
    cases i with
    | zero =>
      rw [readByte_writeNat_of_outside _ _ _ _ _ (writeByte_wf m a _ h) (by omega),
        readByte_writeByte m a _ _ h]
      simp
    | succ i =>
      have := ih (writeByte m a (BitVec.ofNat 8 v)) (a + 1) (v / 256) i
        (writeByte_wf m a _ h) (by omega)
      rw [show a + (i + 1) = a + 1 + i by omega, this, Nat.div_div_eq_div_mul, Nat.pow_succ,
        Nat.mul_comm 256]

theorem readNat_congr (m m' : Memory) (a : Nat) (n : Nat)
    (h : ∀ b, a ≤ b → b < a + n → readByte m b = readByte m' b) :
    readNat m a n = readNat m' a n := by
  induction n generalizing a with
  | zero => rfl
  | succ n ih =>
    rw [readNat, readNat, h a (Nat.le_refl a) (by omega),
      ih (a + 1) fun b h1 h2 => h b (by omega) (by omega)]

theorem readNat_lt (m : Memory) (a : Nat) (n : Nat) : readNat m a n < 256 ^ n := by
  induction n generalizing a with
  | zero => simp [readNat]
  | succ n ih =>
    have := ih (a + 1)
    have hb := (readByte m a).isLt
    rw [readNat, Nat.pow_succ]
    omega

theorem readBytes_congr (m m' : Memory) (a : Nat) (n : Nat)
    (h : ∀ b, a ≤ b → b < a + n → readByte m b = readByte m' b) :
    readBytes m a n = readBytes m' a n := by
  induction n generalizing a with
  | zero => rfl
  | succ n ih =>
    rw [readBytes, readBytes, h a (Nat.le_refl a) (by omega),
      ih (a + 1) fun b h1 h2 => h b (by omega) (by omega)]

/-- Storing a list of bytes leaves every byte outside its range alone. -/
theorem readByte_writeBytes_of_outside (m : Memory) (a : Nat) (bs : List Byte) (b : Nat)
    (h : m.wf = true) (hb : b < a ∨ a + bs.length ≤ b) :
    readByte (writeBytes m a bs) b = readByte m b := by
  induction bs generalizing m a with
  | nil => rfl
  | cons c bs ih =>
    simp only [List.length_cons] at hb
    rw [writeBytes, ih _ _ (writeByte_wf m a c h) (by omega), readByte_writeByte m a c b h,
      if_neg (by omega)]

/-- A stored list of bytes is read back, with the bytes after it. -/
theorem readBytes_writeBytes (m : Memory) (a : Nat) (bs : List Byte) (n : Nat)
    (h : m.wf = true) :
    readBytes (writeBytes m a bs) a (bs.length + n) = bs ++ readBytes m (a + bs.length) n := by
  induction bs generalizing m a with
  | nil => simp [writeBytes]
  | cons c bs ih =>
    have e : (c :: bs).length + n = (bs.length + n) + 1 := by
      simp only [List.length_cons]
      omega
    rw [e, readBytes, writeBytes, ih _ _ (writeByte_wf m a c h),
      readByte_writeBytes_of_outside _ _ _ _ (writeByte_wf m a c h) (by omega),
      readByte_writeByte m a c a h, if_pos rfl]
    simp only [List.cons_append, List.length_cons]
    congr 2
    rw [Nat.add_assoc, Nat.add_comm 1]
    exact readBytes_congr _ _ _ _ fun b _ _ => by
      rw [readByte_writeByte m a c b h, if_neg (by omega)]

end Sys2Proof.Machine
end

