-- ==== Sys2Proof/Laws/Operands.lean ====
section
/-!
SUPPORT. What each shared operation of the leaf can answer, said once: the stops, the operand
addresses, their translation, and the EPC.
-/

namespace Sys2Proof.Machine

/-! ### Stops -/

@[simp] theorem stopIf_ok (c : Prop) [Decidable c] (x : Stop) (u : Unit) :
    stopIf c x = .ok u ↔ ¬ c := by
  unfold stopIf
  split <;> simp_all

@[simp] theorem stopIf_error (c : Prop) [Decidable c] (x y : Stop) :
    stopIf c x = .error y ↔ c ∧ x = y := by
  unfold stopIf
  split <;> simp_all

@[simp] theorem orStop_ok {α : Type} (o : Option α) (x : Stop) (a : α) :
    orStop o x = .ok a ↔ o = some a := by
  cases o <;> simp [orStop]

@[simp] theorem orStop_error {α : Type} (o : Option α) (x y : Stop) :
    orStop o x = .error y ↔ o = none ∧ x = y := by
  cases o <;> simp [orStop]

/-- A sequence answers where both its parts do. -/
@[simp] theorem bind_ok {α β : Type} (e : Except Stop α) (f : α → Except Stop β) (b : β) :
    (e >>= f) = .ok b ↔ ∃ a, e = .ok a ∧ f a = .ok b := by
  cases e with
  | ok a =>
    show f a = .ok b ↔ _
    simp
  | error x =>
    show (Except.error x : Except Stop β) = .ok b ↔ _
    simp

/-- A sequence stops in its first part, or in its second once the first has answered. -/
@[simp] theorem bind_error {α β : Type} (e : Except Stop α) (f : α → Except Stop β) (y : Stop) :
    (e >>= f) = .error y ↔ e = .error y ∨ ∃ a, e = .ok a ∧ f a = .error y := by
  cases e with
  | ok a =>
    show f a = .error y ↔ _
    simp
  | error x =>
    show (Except.error x : Except Stop β) = .error y ↔ _
    simp

@[simp] theorem map_ok {α β : Type} (e : Except Stop α) (f : α → β) (b : β) :
    (f <$> e) = .ok b ↔ ∃ a, e = .ok a ∧ f a = b := by
  cases e with
  | ok a =>
    show (Except.ok (f a) : Except Stop β) = .ok b ↔ _
    simp
  | error x =>
    show (Except.error x : Except Stop β) = .ok b ↔ _
    simp

@[simp] theorem map_error {α β : Type} (e : Except Stop α) (f : α → β) (y : Stop) :
    (f <$> e) = .error y ↔ e = .error y := by
  cases e with
  | ok a =>
    show (Except.ok (f a) : Except Stop β) = .error y ↔ _
    simp
  | error x =>
    show (Except.error x : Except Stop β) = .error y ↔ _
    simp

@[simp] theorem pure_ok {α : Type} (a b : α) : (pure a : Except Stop α) = .ok b ↔ a = b := by
  show (Except.ok a : Except Stop α) = .ok b ↔ _
  simp

@[simp] theorem pure_error {α : Type} (a : α) (y : Stop) :
    ¬ (pure a : Except Stop α) = .error y := nofun

theorem aligned_iff (a : Word) (n : Nat) : aligned a n = true ↔ a.toNat % n = 0 := by
  simp [aligned]

theorem aligned_eq_false_iff (a : Word) (n : Nat) : aligned a n = false ↔ a.toNat % n ≠ 0 := by
  simp [aligned]

/-! ### Operands -/

/-- An aligned operand is an address in DS that is aligned. -/
theorem alignedOperand_ok (s : State) (ea : Word) (size align : Nat) (la : LinAddr) :
    alignedOperand s ea size align = .ok la ↔
      lin s ea size = some la ∧ la.toNat % align = 0 := by
  simp only [alignedOperand, bind_ok, orStop_ok, stopIf_ok, pure_ok, Bool.not_eq_false,
    aligned_iff]
  constructor
  · rintro ⟨_, h, _, h', rfl⟩
    exact ⟨h, h'⟩
  · rintro ⟨h, h'⟩
    exact ⟨la, h, (), h', rfl⟩

/-- An operand that is not one raises `#GP(0)` and nothing else. -/
theorem alignedOperand_error (s : State) (ea : Word) (size align : Nat) (y : Stop) :
    alignedOperand s ea size align = .error y ↔
      y = raiseGp ∧ (lin s ea size = none ∨
        ∃ la, lin s ea size = some la ∧ la.toNat % align ≠ 0) := by
  simp only [alignedOperand, bind_error, orStop_error, orStop_ok, stopIf_error, pure_error,
    aligned_eq_false_iff, and_false, exists_false, or_false]
  constructor
  · rintro (⟨h, rfl⟩ | ⟨la, h, h', rfl⟩)
    · exact ⟨rfl, .inl h⟩
    · exact ⟨rfl, .inr ⟨la, h, h'⟩⟩
  · rintro ⟨rfl, h | ⟨la, h, h'⟩⟩
    · exact .inl ⟨h, rfl⟩
    · exact .inr ⟨la, h, h', rfl⟩

/-- An operand resolves within the EPC where its translation is in the EPC. -/
theorem resolveInEpc_ok (c : Config) (la : LinAddr) (k : AccessKind) (x y : PfSite) (p : Nat) :
    resolveInEpc c la k x y = .ok p ↔ translate c la k = some p ∧ inEpc c p = true := by
  simp only [resolveInEpc, bind_ok, orStop_ok, stopIf_ok, pure_ok, Bool.not_eq_false]
  constructor
  · rintro ⟨_, h, _, h', rfl⟩
    exact ⟨h, h'⟩
  · rintro ⟨h, h'⟩
    exact ⟨p, h, (), h', rfl⟩

/-- Otherwise it raises a page fault at one of its two sites. -/
theorem resolveInEpc_error (c : Config) (la : LinAddr) (k : AccessKind) (x y : PfSite)
    (z : Stop) :
    resolveInEpc c la k x y = .error z ↔
      (translate c la k = none ∧ raisePf x la = z) ∨
        ∃ p, translate c la k = some p ∧ inEpc c p = false ∧ raisePf y la = z := by
  simp only [resolveInEpc, bind_error, orStop_error, orStop_ok, stopIf_error, pure_error,
    and_false, exists_false, or_false]

/-- An operand resolves to ordinary memory where its translation is outside the EPC. -/
theorem resolveOrdinary_ok (c : Config) (la : LinAddr) (x : PfSite) (r : Refusal) (p : Nat) :
    resolveOrdinary c la x r = .ok p ↔ translate c la .read = some p ∧ inEpc c p = false := by
  simp only [resolveOrdinary, bind_ok, orStop_ok, stopIf_ok, pure_ok, Bool.not_eq_true]
  constructor
  · rintro ⟨_, h, _, h', rfl⟩
    exact ⟨h, h'⟩
  · rintro ⟨h, h'⟩
    exact ⟨p, h, (), h', rfl⟩

/-- Otherwise it raises a page fault, or the EPC's memory is refused. -/
theorem resolveOrdinary_error (c : Config) (la : LinAddr) (x : PfSite) (r : Refusal) (z : Stop) :
    resolveOrdinary c la x r = .error z ↔
      (translate c la .read = none ∧ raisePf x la = z) ∨
        ∃ p, translate c la .read = some p ∧ inEpc c p = true ∧ .refuse r = z := by
  simp only [resolveOrdinary, bind_error, orStop_error, orStop_ok, stopIf_error, pure_error,
    and_false, exists_false, or_false]

theorem widePointer_eq_false (m : Mode) (w : Word) :
    widePointer m w = false ↔ (m = .mode32 → w.toNat < 2 ^ 32) := by
  cases m <;> simp [widePointer]

theorem widePointer_iff (m : Mode) (w : Word) :
    widePointer m w = true ↔ m = .mode32 ∧ 2 ^ 32 ≤ w.toNat := by
  cases m <;> simp [widePointer]

/-- A translation that keeps page offsets gives a physical address with the linear one's offset. -/
theorem translate_mod (c : Config) (la : LinAddr) (k : AccessKind) (p : Nat)
    (hc : c.keepsPageOffsets = true) (h : translate c la k = some p) :
    p % 4096 = la.toNat % 4096 := by
  simp only [translate, Option.map_eq_some_iff] at h
  obtain ⟨e, he, rfl⟩ := h
  have hmem := List.mem_of_find?_eq_some he
  have hcov := List.find?_some he
  simp only [Config.keepsPageOffsets, List.all_eq_true, beq_iff_eq] at hc
  simp only [TransEntry.covers, Bool.and_eq_true, decide_eq_true_eq] at hcov
  have := hc e hmem
  omega

theorem inEpc_congr (c : Config) (p q : Nat) (h : frameOf p = frameOf q) :
    inEpc c p = inEpc c q := by
  simp [inEpc, h]

theorem frameOf_add (p i : Nat) (hp : p % 4096 = 0) (hi : i < 4096) :
    frameOf (p + i) = frameOf p := by
  unfold frameOf
  omega

end Sys2Proof.Machine
end

