-- ==== Sys2Proof/Laws/Eaug.lean ====
section
/-!
SUPPORT. When each check of the leaf passes, in the words of Safety.lean; when all of them do; and
what the writes leave.
-/

namespace Sys2Proof.Machine

variable {s : State} {o : EaugOperands}

/-- The availability test, in the words of Safety.lean. -/
theorem leafAvailable_iff (c : Config) : leafAvailable c = true ↔ LeafAvailable c := by
  simp [leafAvailable, and_assoc]

theorem leafAvailable_eq_false_iff (c : Config) : leafAvailable c = false ↔ ¬ LeafAvailable c := by
  rw [← leafAvailable_iff, Bool.not_eq_true]

/-! ### Each check where the leaf has come that far -/

theorem checkAdmission_ok (u : Unit) : checkAdmission s = .ok u ↔ Admitted s := by
  simp only [checkAdmission, bind_ok, stopIf_ok, ne_eq, Decidable.not_not, Bool.not_eq_false,
    Nat.not_le, leafAvailable_iff, Admitted]
  constructor
  · rintro ⟨_, h1, _, h2, h3⟩
    exact ⟨h1, h2, h3⟩
  · rintro ⟨h1, h2, h3⟩
    exact ⟨(), h1, (), h2, h3⟩

/-- Where the leaf is admitted the instruction pointer moves by the length without wrapping. -/
theorem nextPc_toNat (h : Admitted s) :
    (nextPc s.cfg s.pc).toNat = s.pc.toNat + s.cfg.enclsLength := by
  have hw : 2 ^ addressWidth s.cfg.mode ≤ 2 ^ 64 :=
    Nat.pow_le_pow_right (by omega) (by cases s.cfg.mode <;> decide)
  have hp := h.2.2
  rw [nextPc, BitVec.toNat_add, BitVec.toNat_ofNat, Nat.mod_eq_of_lt (a := s.cfg.enclsLength)
    (by omega), Nat.mod_eq_of_lt (by omega)]

theorem checkPrivilege_ok (u : Unit) : checkPrivilege s = .ok u ↔ s.cpl = 0#2 := by
  simp [checkPrivilege]

theorem pageinfoOperand_ok (la : LinAddr) : pageinfoOperand s = .ok la ↔
    lin s (effectiveAddress s.cfg.mode s.rbx) 32 = some la ∧ la.toNat % 32 = 0 :=
  alignedOperand_ok ..

theorem targetOperand_ok (la : LinAddr) : targetOperand s = .ok la ↔
    lin s (effectiveAddress s.cfg.mode s.rcx) 4096 = some la ∧ la.toNat % 4096 = 0 :=
  alignedOperand_ok ..

theorem resolveTarget_ok (la : LinAddr) (p : Nat) : resolveTarget s la = .ok p ↔
    translate s.cfg la .write = some p ∧ inEpc s.cfg p = true :=
  resolveInEpc_ok ..

/-- The PAGEINFO is read where it resolves to ordinary memory and its pointers fit. -/
theorem readPageinfo_ok (la : LinAddr) (pi : Pageinfo) : readPageinfo s la = .ok pi ↔
    ∃ p, translate s.cfg la .read = some p ∧ inEpc s.cfg p = false ∧ pi = pageinfoAt s p ∧
      (s.cfg.mode = .mode32 → pi.secs.toNat < 2 ^ 32 ∧ pi.secinfo.toNat < 2 ^ 32) := by
  simp only [readPageinfo, bind_ok, resolveOrdinary_ok, stopIf_ok, pure_ok, not_or,
    Bool.not_eq_true, widePointer_eq_false]
  constructor
  · rintro ⟨p, ⟨h, h'⟩, _, ⟨hs, hi⟩, rfl⟩
    exact ⟨p, h, h', rfl, fun hm => ⟨hs hm, hi hm⟩⟩
  · rintro ⟨p, h, h', rfl, hw⟩
    exact ⟨p, ⟨h, h'⟩, (), ⟨fun hm => (hw hm).1, fun hm => (hw hm).2⟩, rfl⟩

theorem secinfoOperand_ok (pi : Pageinfo) (r : Option LinAddr) : secinfoOperand s pi = .ok r ↔
    (pi.secinfo = 0#64 ∧ r = none) ∨
      ∃ la, pi.secinfo ≠ 0#64 ∧ r = some la ∧ lin s pi.secinfo 64 = some la ∧
        la.toNat % 64 = 0 := by
  unfold secinfoOperand
  split
  · rename_i h
    simp [h, eq_comm]
  · rename_i h
    simp only [bind_ok, alignedOperand_ok, pure_ok]
    constructor
    · rintro ⟨la, ⟨h1, h2⟩, rfl⟩
      exact .inr ⟨la, h, rfl, h1, h2⟩
    · rintro (⟨h', _⟩ | ⟨la, _, rfl, h1, h2⟩)
      · exact absurd h' h
      · exact ⟨la, ⟨h1, h2⟩, rfl⟩

theorem secsOperand_ok (pi : Pageinfo) (la : LinAddr) : secsOperand s pi = .ok la ↔
    lin s pi.secs 4096 = some la ∧ la.toNat % 4096 = 0 ∧ pi.linaddr.toNat % 4096 = 0 := by
  simp only [secsOperand, bind_ok, orStop_ok, stopIf_ok, pure_ok, not_or, Bool.not_eq_false,
    aligned_iff]
  constructor
  · rintro ⟨_, h, _, ⟨h1, h2⟩, rfl⟩
    exact ⟨h, h1, h2⟩
  · rintro ⟨h, h1, h2⟩
    exact ⟨la, h, (), ⟨h1, h2⟩, rfl⟩

theorem checkSrcpge_ok (pi : Pageinfo) (u : Unit) :
    checkSrcpge pi = .ok u ↔ pi.srcpge = 0#64 := by
  simp [checkSrcpge]

theorem resolveSecs_ok (la : LinAddr) (p : Nat) : resolveSecs s la = .ok p ↔
    translate s.cfg la .readwrite = some p ∧ inEpc s.cfg p = true :=
  resolveInEpc_ok ..

theorem checkTargetLock_ok (la : LinAddr) (p : Nat) (u : Unit) :
    checkTargetLock s la p = .ok u ↔ s.lockAt p = .free := by
  simp [checkTargetLock]

theorem checkTargetFree_ok (la : LinAddr) (p : Nat) (u : Unit) :
    checkTargetFree s la p = .ok u ↔ (s.epcmAt p).valid = false := by
  simp [checkTargetFree]

/-- A SECINFO gives its attributes where it is accepted and has no state bit. -/
theorem checkSecinfo_ok (si : Secinfo) (a : SecAttrs) : checkSecinfo s si = .ok a ↔
    SecinfoAccepted s si ∧ si.stateNonzero = false ∧ si.pt = some a.pt ∧
      a.r = true ∧ a.w = true ∧ a.x = false := by
  obtain ⟨ar, aw, ax, apt⟩ := a
  simp only [checkSecinfo, bind_ok, stopIf_ok, orStop_ok, pure_ok, not_or, not_and, ne_eq,
    not_not, Bool.not_eq_true, Bool.not_eq_false, SecAttrs.mk.injEq, SecinfoAccepted]
  constructor
  · rintro ⟨_, ⟨h1, h2, h3, h4, h5, h6⟩, _, h7, pt, h8, rfl, rfl, rfl, rfl⟩
    refine ⟨⟨h1, h2, ?_, h4, h5, h6⟩, h7, h8, h4, h5, h6⟩
    by_cases h : si.pt = some .ssFirst
    · exact .inl h
    · exact .inr (h3 h)
  · rintro ⟨⟨h1, h2, h3, h4, h5, h6⟩, h7, h8, rfl, rfl, rfl⟩
    exact ⟨(), ⟨h1, h2, fun h => h3.resolve_left h, h4, h5, h6⟩, (), h7, apt, h8, h4, h5, h6,
      rfl⟩

theorem checkCet_ok (a : SecAttrs) (u : Unit) :
    checkCet s a = .ok u ↔ (isShadowStack a.pt = true → s.cr4Cet = true) := by
  simp [checkCet]

theorem checkSecsLock_ok (p : Nat) (u : Unit) :
    checkSecsLock s p = .ok u ↔ s.lockAt p ≠ .exclusive := by
  simp [checkSecsLock]

theorem checkDistinct_ok (pT pS : Nat) (u : Unit) : checkDistinct pT pS = .ok u ↔ pS ≠ pT := by
  simp [checkDistinct]

theorem checkSecsValid_ok (la : LinAddr) (p : Nat) (u : Unit) :
    checkSecsValid s la p = .ok u ↔ (s.epcmAt p).valid = true ∧ (s.epcmAt p).pt = .secs := by
  simp [checkSecsValid]

theorem checkInitialized_ok (p : Nat) (u : Unit) :
    checkInitialized s p = .ok u ↔ (s.secsAt p).initialized = true := by
  simp [checkInitialized]

theorem checkRange_ok (e : Secs) (l : Word) (u : Unit) : checkRange e l = .ok u ↔
    e.baseaddr.toNat ≤ l.toNat ∧ l.toNat < e.baseaddr.toNat + e.size.toNat ∧
      e.baseaddr.toNat + e.size.toNat < 2 ^ 64 := by
  simp only [checkRange, bind_ok, stopIf_ok, Nat.not_lt, Nat.not_le]
  constructor
  · rintro ⟨_, h1, _, h2, h3⟩
    exact ⟨h1, h3, h2⟩
  · rintro ⟨h1, h2, h3⟩
    exact ⟨(), h1, (), h3, h2⟩

theorem checkShadowEnds_ok (e : Secs) (l : Word) (a : SecAttrs) (u : Unit) :
    checkShadowEnds e l a = .ok u ↔ (isShadowStack a.pt = true → ¬ atRangeEnd l e) := by
  simp only [checkShadowEnds, stopIf_ok, not_and]

theorem needsToken_iff (c : Config) (a : SecAttrs) :
    needsToken c a = true ↔ c.cpuid.cetSs = true ∧ a.pt = .ssFirst := by
  simp [needsToken]

theorem checkToken_ok (c : Config) (l : Word) (a : SecAttrs) (u : Unit) :
    checkToken c l a = .ok u ↔
      (c.cpuid.cetSs = true ∧ a.pt = .ssFirst → l.toNat + 0x1000 < 2 ^ 64) := by
  simp only [checkToken, stopIf_ok, not_and, needsToken_iff, Nat.not_le]

/-! ### All of them -/

/-- What the writes are given when every check has passed. -/
def EaugOperands.plan (o : EaugOperands) (s : State) : EaugPlan where
  target := o.pT
  secsPage := o.pS
  linaddr := (o.pageinfo s).linaddr
  attrs := o.attrs

@[simp] theorem EaugOperands.plan_target : (o.plan s).target = o.pT := rfl

@[simp] theorem EaugOperands.plan_secsPage : (o.plan s).secsPage = o.pS := rfl

@[simp] theorem EaugOperands.plan_linaddr : (o.plan s).linaddr = (o.pageinfo s).linaddr := rfl

@[simp] theorem EaugOperands.plan_attrs : (o.plan s).attrs = o.attrs := rfl

/-- The attributes where the SECINFO's address was settled. -/
theorem securityAttributes_ok (r : Option LinAddr) (a : SecAttrs) :
    securityAttributes s r = .ok a ↔
      (r = none ∧ a = defaultAttrs) ∨
        ∃ la p, r = some la ∧ translate s.cfg la .read = some p ∧ inEpc s.cfg p = false ∧
          checkSecinfo s (secinfoAt s p) = .ok a := by
  cases r with
  | none =>
    simp only [securityAttributes, Except.ok.injEq, true_and, reduceCtorEq, false_and,
      exists_false, or_false]
    exact eq_comm
  | some la =>
    simp only [securityAttributes, bind_ok, resolveOrdinary_ok, reduceCtorEq, false_and,
      false_or, Option.some.injEq]
    constructor
    · rintro ⟨p, ⟨h1, h2⟩, h3⟩
      exact ⟨la, p, rfl, h1, h2, h3⟩
    · rintro ⟨_, p, rfl, h1, h2, h3⟩
      exact ⟨p, ⟨h1, h2⟩, h3⟩

/-- The SECINFO's address in the form the later checks take it. -/
def EaugOperands.laSi? (o : EaugOperands) (s : State) : Option LinAddr :=
  if (o.pageinfo s).secinfo = 0#64 then none else some o.laSi

theorem readPageinfo_of (h : PageinfoRead s o) : readPageinfo s o.laPi = .ok (o.pageinfo s) :=
  (readPageinfo_ok _ _).2 ⟨o.pPi, h.2.1, h.2.2.1, rfl, h.2.2.2⟩

theorem secinfoOperand_of (h : SecinfoAddressed s o) :
    secinfoOperand s (o.pageinfo s) = .ok (o.laSi? s) := by
  rw [secinfoOperand_ok]
  unfold EaugOperands.laSi?
  split
  · rename_i h0
    exact .inl ⟨h0, rfl⟩
  · rename_i h0
    exact .inr ⟨o.laSi, h0, rfl, h.2 h0⟩

theorem securityAttributes_of (h : AttributesSettled s o) :
    securityAttributes s (o.laSi? s) = .ok o.attrs := by
  obtain ⟨⟨_, hr⟩, hd, hc⟩ := h
  rw [securityAttributes_ok]
  unfold EaugOperands.laSi?
  split
  · rename_i h0
    exact .inl ⟨rfl, hd h0⟩
  · rename_i h0
    exact .inr ⟨o.laSi, o.pSi, rfl, (hr h0).1, (hr h0).2, (checkSecinfo_ok _ _).2 (hc h0)⟩

/-- Every check passes where the premises of success hold. -/
theorem eaugChecks_of (h : EaugSucceeds s o) : eaugChecks s = .ok (o.plan s) := by
  have hAll := h
  obtain ⟨h, hToken⟩ := h
  obtain ⟨h, hEnds⟩ := h
  obtain ⟨h, hRange⟩ := h
  obtain ⟨h, hInit⟩ := h
  obtain ⟨h, hValid⟩ := h
  obtain ⟨h, hDistinct⟩ := h
  obtain ⟨h, hSecsLock⟩ := h
  obtain ⟨hAttrs, hCet⟩ := h
  obtain ⟨⟨h, hSi⟩, hAttrs'⟩ := hAttrs
  obtain ⟨h, hFree⟩ := h
  obtain ⟨h, hLock⟩ := h
  obtain ⟨h, hSecs⟩ := h
  obtain ⟨h, hSrc⟩ := h
  obtain ⟨hSecinfo, hSecsAddr⟩ := h
  obtain ⟨hPageinfo, _⟩ := hSecinfo
  obtain ⟨h, _⟩ := hPageinfo
  obtain ⟨h, hTarget⟩ := h
  obtain ⟨h, hT⟩ := h
  obtain ⟨h, hPi⟩ := h
  obtain ⟨hAdm, hCpl⟩ := h
  simp only [eaugChecks, bind_ok, pure_ok]
  exact ⟨(), (checkAdmission_ok _).2 hAdm, (), (checkPrivilege_ok _).2 hCpl,
    o.laPi, (pageinfoOperand_ok _).2 hPi, o.laT, (targetOperand_ok _).2 hT,
    o.pT, (resolveTarget_ok _ _).2 hTarget,
    o.pageinfo s, readPageinfo_of hAll.1.1.1.1.1.1.1.1.1.1.1.1.1.1.1.1,
    o.laSi? s, secinfoOperand_of hAll.1.1.1.1.1.1.1.1.1.1.1.1.1.1.1,
    o.laS, (secsOperand_ok _ _).2 hSecsAddr, (), (checkSrcpge_ok _ _).2 hSrc,
    o.pS, (resolveSecs_ok _ _).2 hSecs, (), (checkTargetLock_ok _ _ _).2 hLock,
    (), (checkTargetFree_ok _ _ _).2 hFree,
    o.attrs, securityAttributes_of ⟨⟨⟨⟨⟨hAll.1.1.1.1.1.1.1.1.1.1.1.1.1, hSecs⟩, hLock⟩, hFree⟩, hSi⟩, hAttrs'⟩,
    (), (checkCet_ok _ _).2 hCet, (), (checkSecsLock_ok _ _).2 hSecsLock,
    (), (checkDistinct_ok _ _ _).2 hDistinct, (), (checkSecsValid_ok _ _ _).2 hValid,
    (), (checkInitialized_ok _ _).2 hInit, (), (checkRange_ok _ _ _).2 hRange,
    (), (checkShadowEnds_ok _ _ _ _).2 hEnds, (), (checkToken_ok _ _ _ _).2 hToken, rfl⟩

theorem targetResolved_of_succeeds (h : EaugSucceeds s o) : TargetResolved s o :=
  h.1.1.1.1.1.1.1.1.1.1.1.1.1.1.1.1.1

theorem pageinfoRead_of_succeeds (h : EaugSucceeds s o) : PageinfoRead s o :=
  h.1.1.1.1.1.1.1.1.1.1.1.1.1.1.1.1

theorem secinfoAddressed_of_succeeds (h : EaugSucceeds s o) : SecinfoAddressed s o :=
  h.1.1.1.1.1.1.1.1.1.1.1.1.1.1.1

theorem secsAddressed_of_succeeds (h : EaugSucceeds s o) : SecsAddressed s o :=
  h.1.1.1.1.1.1.1.1.1.1.1.1.1.1

theorem targetUnlocked_of_succeeds (h : EaugSucceeds s o) : TargetUnlocked s o :=
  h.1.1.1.1.1.1.1.1.1.1.1

theorem secinfoRead_of_succeeds (h : EaugSucceeds s o) : SecinfoRead s o := h.1.1.1.1.1.1.1.1.1

theorem attributesSettled_of_succeeds (h : EaugSucceeds s o) : AttributesSettled s o :=
  h.1.1.1.1.1.1.1.1

theorem secsValid_of_succeeds (h : EaugSucceeds s o) : SecsValid s o := h.1.1.1.1

/-- The target page is aligned where the translation keeps page offsets. -/
theorem target_aligned_of_succeeds (hc : s.cfg.keepsPageOffsets = true) (h : EaugSucceeds s o) :
    o.pT % 4096 = 0 := by
  have hT := targetResolved_of_succeeds h
  rw [translate_mod _ _ _ _ hc hT.2.1]
  exact hT.1.2.2

/-- Every check passes only where the premises of success hold for the operands it settled. -/
theorem eaugChecks_ok (p : EaugPlan) (h : eaugChecks s = .ok p) :
    ∃ o, EaugSucceeds s o ∧ p = o.plan s := by
  simp only [eaugChecks, bind_ok, pure_ok, checkAdmission_ok, checkPrivilege_ok,
    pageinfoOperand_ok, targetOperand_ok, resolveTarget_ok, readPageinfo_ok, secinfoOperand_ok,
    secsOperand_ok, checkSrcpge_ok, resolveSecs_ok, checkTargetLock_ok, checkTargetFree_ok,
    securityAttributes_ok, checkCet_ok, checkSecsLock_ok, checkDistinct_ok, checkSecsValid_ok,
    checkInitialized_ok, checkRange_ok, checkShadowEnds_ok, checkToken_ok] at h
  obtain ⟨_, hAdm, _, hCpl, laPi, hPi, laT, hT, pT, hTarget, _, ⟨pPi, hp1, hp2, rfl, hp3⟩, r, hr,
    laS, hSecsAddr, _, hSrc, pS, hSecs, _, hLock, _, hFree, a, ha, _, hCet, _, hSecsLock, _,
    hDistinct, _, hValid, _, hInit, _, hRange, _, hEnds, _, hToken, rfl⟩ := h
  rcases hr with ⟨hz, rfl⟩ | ⟨laSi, hz, rfl, hsi⟩
  · rcases ha with ⟨_, rfl⟩ | ⟨_, _, h, _⟩
    · exact ⟨⟨laPi, laT, 0#64, laS, pPi, pT, 0, pS, defaultAttrs⟩,
        ⟨⟨⟨⟨⟨⟨⟨⟨⟨⟨⟨⟨⟨⟨⟨⟨⟨⟨⟨hAdm, hCpl⟩, hPi⟩, hT⟩, hTarget⟩, hp1, hp2, hp3⟩,
          fun h => absurd hz h⟩, hSecsAddr⟩, hSrc⟩, hSecs⟩, hLock⟩, hFree⟩, fun h => absurd hz h⟩,
          fun _ => rfl, fun h => absurd hz h⟩, hCet⟩, hSecsLock⟩, hDistinct⟩, hValid⟩, hInit⟩,
          hRange⟩ |> fun h => ⟨⟨h, hEnds⟩, hToken⟩, rfl⟩
    · cases h
  · rcases ha with ⟨h, _⟩ | ⟨_, pSi, h, hs1, hs2, hs3⟩
    · cases h
    · cases h
      exact ⟨⟨laPi, laT, laSi, laS, pPi, pT, pSi, pS, a⟩,
        ⟨⟨⟨⟨⟨⟨⟨⟨⟨⟨⟨⟨⟨⟨⟨⟨⟨⟨⟨hAdm, hCpl⟩, hPi⟩, hT⟩, hTarget⟩, hp1, hp2, hp3⟩,
          fun _ => hsi⟩, hSecsAddr⟩, hSrc⟩, hSecs⟩, hLock⟩, hFree⟩, fun _ => ⟨hs1, hs2⟩⟩,
          fun h => absurd h hz, fun _ => (checkSecinfo_ok _ _).1 hs3⟩, hCet⟩, hSecsLock⟩,
          hDistinct⟩, hValid⟩, hInit⟩, hRange⟩ |> fun h => ⟨⟨h, hEnds⟩, hToken⟩, rfl⟩

/-- What one execution of the leaf can answer, said once. -/
theorem execEnclsEaug_eq_next (t : State) : execEnclsEaug s = .next t ↔
    (∃ o, EaugSucceeds s o ∧ t = eaugCommit s (o.plan s)) ∨
      ∃ gpa gla, eaugChecks s = .error (.vmExit gpa gla) ∧ t = s.deliverVmExit gpa gla := by
  unfold execEnclsEaug
  split
  · rename_i p hp
    obtain ⟨o, ho, rfl⟩ := eaugChecks_ok p hp
    constructor
    · intro h
      cases h
      exact .inl ⟨o, ho, rfl⟩
    · rintro (⟨o', ho', rfl⟩ | ⟨_, _, h, _⟩)
      · rw [eaugChecks_of ho'] at hp
        rw [Except.ok.inj hp]
      · rw [hp] at h
        cases h
  · rename_i x hx
    constructor
    · intro h
      cases x with
      | fault f => cases h
      | refuse r => cases h
      | vmExit gpa gla =>
        cases h
        exact .inr ⟨gpa, gla, hx, rfl⟩
    · rintro (⟨o', ho', rfl⟩ | ⟨gpa, gla, h, rfl⟩)
      · rw [eaugChecks_of ho'] at hx
        cases hx
      · rw [hx] at h
        cases h
        rfl

/-! ### The writes -/

/-- The token is `LINADDR + 0x1000` plus the `MODE64BIT` bit, for an aligned `LINADDR` (R93). -/
theorem shadowStackToken_toNat (l : Word) (e : Secs) (hl : l.toNat % 4096 = 0)
    (h : l.toNat + 0x1000 < 2 ^ 64) :
    (shadowStackToken l e).toNat = l.toNat + 0x1000 + (if e.mode64bit then 1 else 0) := by
  have hadd : (l + 0x1000#64).toNat = l.toNat + 0x1000 := by
    rw [BitVec.toNat_add]
    simp only [BitVec.toNat_ofNat]
    omega
  rw [shadowStackToken, BitVec.toNat_or, hadd]
  cases e.mode64bit
  · simp
  · simp only [BitVec.ofBool_true, BitVec.toNat_setWidth, if_true]
    have hk : l.toNat + 0x1000 = 2 ^ 1 * ((l.toNat + 0x1000) / 2) := by omega
    rw [hk]
    exact (Nat.two_pow_add_eq_or_of_lt (by decide) _).symm

/-- A byte of memory after the writes: the token's in the last 8 bytes of the page where one is due,
zero in the rest of the page, and the old one elsewhere (R92, R93). -/
theorem readByte_eaugMemory (p : EaugPlan) (a : Nat) (h : s.mem.wf = true) :
    readByte (eaugMemory s p) a =
      if p.target ≤ a ∧ a < p.target + 4096 then
        if needsToken s.cfg p.attrs = true ∧ p.target + 0xFF8 ≤ a then
          BitVec.ofNat 8 ((shadowStackToken p.linaddr (s.secsAt p.secsPage)).toNat /
            256 ^ (a - (p.target + 0xFF8)))
        else 0#8
      else readByte s.mem a := by
  have hz : Memory.wf (fillZero s.mem p.target 4096) = true := fillZero_wf _ _ _ h
  simp only [eaugMemory, write64, zeroPage]
  by_cases ht : needsToken s.cfg p.attrs = true
  · rw [if_pos ht]
    by_cases ha : p.target + 0xFF8 ≤ a ∧ a < p.target + 0xFF8 + 8
    · obtain ⟨i, rfl⟩ := Nat.exists_eq_add_of_le ha.1
      rw [readByte_writeNat_inside _ _ _ _ _ hz (by omega), if_pos (by omega),
        if_pos ⟨ht, by omega⟩, Nat.add_sub_cancel_left]
    · rw [readByte_writeNat_of_outside _ _ _ _ _ hz (by omega), readByte_fillZero]
      by_cases hp : p.target ≤ a ∧ a < p.target + 4096
      · rw [if_pos hp, if_pos hp, if_neg (by omega)]
      · rw [if_neg hp, if_neg hp]
  · rw [if_neg ht, readByte_fillZero]
    simp [ht]

/-- The same, for the operands the checks settled. -/
theorem byteAt_eaugCommit_plan (a : Nat) (h : s.mem.wf = true) :
    (eaugCommit s (o.plan s)).byteAt a =
      if o.pT ≤ a ∧ a < o.pT + 4096 then
        if needsToken s.cfg o.attrs = true ∧ o.pT + 0xFF8 ≤ a then
          BitVec.ofNat 8 ((shadowStackToken (o.pageinfo s).linaddr (s.secsAt o.pS)).toNat /
            256 ^ (a - (o.pT + 0xFF8)))
        else 0#8
      else s.byteAt a :=
  readByte_eaugMemory (o.plan s) a h

/-- The writes keep memory's canonical form. -/
theorem eaugMemory_wf (p : EaugPlan) (h : s.mem.wf = true) :
    Memory.wf (eaugMemory s p) = true := by
  have hz : Memory.wf (fillZero s.mem p.target 4096) = true := fillZero_wf _ _ _ h
  simp only [eaugMemory, write64, zeroPage]
  split
  · exact writeNat_wf _ _ _ _ hz
  · exact hz

/-- The writes keep the EPCM's canonical form. -/
theorem setEpcm_wf (t : Table EpcmEntry) (p : Nat) (e : EpcmEntry)
    (h : Table.wf unlistedEpcm t = true) : Table.wf unlistedEpcm (setEpcm t p e) = true :=
  Table.wf_set _ _ _ _ h

/-- An EPCM entry after the writes: the new one for the target's page, the old one elsewhere. -/
theorem epcmAt_eaugCommit (p : EaugPlan) (q : Nat) (h : Table.wf unlistedEpcm s.epcm = true) :
    (eaugCommit s p).epcmAt q =
      if frameOf q = frameOf p.target then newEpcmEntry p else s.epcmAt q :=
  Table.get_set _ _ _ _ _ h

/-- The same, for the operands the checks settled. -/
theorem epcmAt_eaugCommit_plan (q : Nat) (h : Table.wf unlistedEpcm s.epcm = true) :
    (eaugCommit s (o.plan s)).epcmAt q =
      if frameOf q = frameOf o.pT then newEpcmEntry (o.plan s) else s.epcmAt q :=
  epcmAt_eaugCommit (o.plan s) q h

end Sys2Proof.Machine
end

