-- ==== Sys2Proof/Laws/PerInstr.lean ====
section
/-!
SUPPORT. The family of statements about every instruction as syntax: its encoding has the length
that the spec gives as the default of the parameter `enclsLength` (10_state.md R12).
-/

namespace Sys2Proof.Laws.EncodedLength

/-- A well-formed instruction's encoding is `defaultEnclsLength` bytes long. -/
def Statement (i : Instr) : Prop := i.wf = true → (encode i).length = Machine.defaultEnclsLength

theorem enclsEaug : Statement .enclsEaug := fun _ => rfl

end Sys2Proof.Laws.EncodedLength
end

