-- ==== Sys2Proof/Laws/Step.lean ====
section
/-!
SUPPORT. What one step can answer, said once.
-/

namespace Sys2Proof.Machine

/-- A step answers a next state where no VM exit was delivered, the bytes decode to an instruction,
and its execution answers that state. -/
theorem step_eq_next (s t : State) : step s = .next t ↔
    s.vmExited = false ∧
      ∃ i rest, decode s.cfg.mode s.fetch = .instr i rest ∧ exec i s = .next t := by
  unfold step
  split
  · rename_i hv
    simp [hv]
  · rename_i hv
    have hv : s.vmExited = false := by simpa using hv
    split
    · rename_i i rest hd
      constructor
      · intro h
        exact ⟨hv, i, rest, hd, h⟩
      · rintro ⟨_, i', rest', hd', h⟩
        rw [hd] at hd'
        cases hd'
        exact h
    · rename_i hd
      simp [hd]
    · rename_i hd
      simp [hd]

/-- What the next state is: the writes of a leaf whose checks all passed, or a delivered VM exit. -/
theorem eq_of_step_next (s t : State) (h : step s = .next t) :
    (∃ o, EaugSucceeds s o ∧ t = eaugCommit s (o.plan s)) ∨
      ∃ gpa gla, eaugChecks s = .error (.vmExit gpa gla) ∧ t = s.deliverVmExit gpa gla := by
  obtain ⟨_, i, _, _, h⟩ := (step_eq_next s t).1 h
  cases i
  exact (execEnclsEaug_eq_next t).1 h

end Sys2Proof.Machine
end

