-- ==== Sys2Proof/Laws/Stops.lean ====
section
/-!
SUPPORT. Where the leaf stops: in one check, with all the checks before it passed. Said once, in both
directions, and with what each composite check can stop for.
-/

namespace Sys2Proof.Machine

variable {s : State} {o : EaugOperands}

theorem bind_of_ok {α β : Type} (a : α) (f : α → Except Stop β) :
    ((Except.ok a : Except Stop α) >>= f) = f a := rfl

theorem bind_of_error {α β : Type} (x : Stop) (f : α → Except Stop β) :
    ((Except.error x : Except Stop α) >>= f) = .error x := rfl

/-- A leaf that stops has the outcome of its stop. -/
theorem execEnclsEaug_of_error (x : Stop) (h : eaugChecks s = .error x) :
    execEnclsEaug s = x.outcome s := by
  unfold execEnclsEaug
  rw [h]

/-- A leaf whose checks all pass answers the writes. -/
theorem execEnclsEaug_of (h : EaugSucceeds s o) :
    execEnclsEaug s = .next (eaugCommit s (o.plan s)) :=
  (execEnclsEaug_eq_next _).2 (.inl ⟨o, h, rfl⟩)

/-- A fault or a refusal is the outcome of a stop. -/
theorem execEnclsEaug_eq_fault (f : Fault) :
    execEnclsEaug s = .fault f ↔ eaugChecks s = .error (.fault f) := by
  constructor
  · intro h
    unfold execEnclsEaug at h
    split at h
    · cases h
    · rename_i x hx
      cases x <;> cases h
      exact hx
  · exact execEnclsEaug_of_error _

theorem execEnclsEaug_eq_refused (r : Refusal) :
    execEnclsEaug s = .refused r ↔ eaugChecks s = .error (.refuse r) := by
  constructor
  · intro h
    unfold execEnclsEaug at h
    split at h
    · cases h
    · rename_i x hx
      cases x <;> cases h
      exact hx
  · exact execEnclsEaug_of_error _

theorem isShadowStack_iff (pt : PageType) :
    isShadowStack pt = true ↔ pt = .ssFirst ∨ pt = .ssRest := by
  cases pt <;> simp [isShadowStack]

/-! ### What each composite check can stop for -/

/-- The admission tests refuse, each for its own reason and in order (R72). -/
theorem checkAdmission_error (x : Stop) : checkAdmission s = .error x ↔
    (s.eax ≠ 0x0D#32 ∧ x = .refuse .otherLeaf) ∨
    (s.eax = 0x0D#32 ∧ ¬ LeafAvailable s.cfg ∧ x = .refuse .featureAbsent) ∨
    (s.eax = 0x0D#32 ∧ LeafAvailable s.cfg ∧
      2 ^ addressWidth s.cfg.mode ≤ s.pc.toNat + s.cfg.enclsLength ∧ x = .refuse .pcWrap) := by
  simp only [checkAdmission, bind_error, stopIf_error, stopIf_ok]
  simp only [eaugLeaf, ne_eq, Decidable.not_not, leafAvailable_eq_false_iff,
    eq_comm (b := x)]
  constructor
  · rintro (h | ⟨_, h1, h | ⟨_, h2, h⟩⟩)
    · exact .inl h
    · exact .inr (.inl ⟨h1, h⟩)
    · exact .inr (.inr ⟨h1, h2, h⟩)
  · rintro (h | ⟨h1, h⟩ | ⟨h1, h2, h⟩)
    · exact .inl h
    · exact .inr ⟨(), h1, .inl h⟩
    · exact .inr ⟨(), h1, .inr ⟨(), h2, h⟩⟩

/-- Reading the PAGEINFO raises a page fault, or refuses (R76). -/
theorem readPageinfo_error (la : LinAddr) (x : Stop) : readPageinfo s la = .error x ↔
    (translate s.cfg la .read = none ∧ x = raisePf .pageinfoTranslate la) ∨
    ∃ p, translate s.cfg la .read = some p ∧
      ((inEpc s.cfg p = true ∧ x = .refuse .pageinfoInEpc) ∨
        (inEpc s.cfg p = false ∧ s.cfg.mode = .mode32 ∧
          (2 ^ 32 ≤ (pageinfoAt s p).secs.toNat ∨ 2 ^ 32 ≤ (pageinfoAt s p).secinfo.toNat) ∧
          x = .refuse .widePointer)) := by
  simp only [readPageinfo, bind_error, resolveOrdinary_error, resolveOrdinary_ok, stopIf_error,
    pure_error, and_false, exists_false, or_false, widePointer_iff, eq_comm (b := x)]
  constructor
  · rintro ((h | ⟨p, h1, h2, h3⟩) | ⟨p, ⟨h1, h2⟩, h3, h4⟩)
    · exact .inl h
    · exact .inr ⟨p, h1, .inl ⟨h2, h3⟩⟩
    · refine .inr ⟨p, h1, .inr ⟨h2, ?_, ?_, h4⟩⟩
      · exact h3.elim (·.1) (·.1)
      · exact h3.imp (·.2) (·.2)
  · rintro (h | ⟨p, h1, ⟨h2, h3⟩ | ⟨h2, hm, h3, h4⟩⟩)
    · exact .inl (.inl h)
    · exact .inl (.inr ⟨p, h1, h2, h3⟩)
    · exact .inr ⟨p, ⟨h1, h2⟩, h3.imp (⟨hm, ·⟩) (⟨hm, ·⟩), h4⟩

/-- A SECINFO's address raises `#GP(0)` (R77). -/
theorem secinfoOperand_error (pi : Pageinfo) (x : Stop) : secinfoOperand s pi = .error x ↔
    pi.secinfo ≠ 0#64 ∧ x = raiseGp ∧ (lin s pi.secinfo 64 = none ∨
      ∃ la, lin s pi.secinfo 64 = some la ∧ la.toNat % 64 ≠ 0) := by
  unfold secinfoOperand
  split
  · rename_i h
    simp [h]
  · rename_i h
    simp only [bind_error, alignedOperand_error, pure_error, and_false, exists_false, or_false,
      ne_eq, h, not_false_eq_true, true_and]

/-- The SECS's address or `LINADDR` raises `#GP(0)` (R78). -/
theorem secsOperand_error (pi : Pageinfo) (x : Stop) : secsOperand s pi = .error x ↔
    x = raiseGp ∧ (lin s pi.secs 4096 = none ∨
      ∃ la, lin s pi.secs 4096 = some la ∧
        (la.toNat % 4096 ≠ 0 ∨ pi.linaddr.toNat % 4096 ≠ 0)) := by
  simp only [secsOperand, bind_error, orStop_error, orStop_ok, stopIf_error, pure_error,
    and_false, exists_false, or_false, aligned_eq_false_iff, eq_comm (b := x)]
  constructor
  · rintro (⟨h, h'⟩ | ⟨la, h, h', h''⟩)
    · exact ⟨h', .inl h⟩
    · exact ⟨h'', .inr ⟨la, h, h'⟩⟩
  · rintro ⟨h', h | ⟨la, h, h''⟩⟩
    · exact .inl ⟨h, h'⟩
    · exact .inr ⟨la, h, h'', h'⟩

/-- A SECINFO that is not accepted raises `#GP(0)`; an accepted one with a state bit is refused
(R84). -/
theorem checkSecinfo_error (si : Secinfo) (x : Stop) : checkSecinfo s si = .error x ↔
    (¬ SecinfoAccepted s si ∧ x = raiseGp) ∨
    (SecinfoAccepted s si ∧ si.stateNonzero = true ∧ x = .refuse .secinfoStateBits) := by
  have hterm : (si.reservedNonzero = true ∨ s.cfg.cpuid.leaf12Eax6 = false ∨
      (si.pt ≠ some .ssFirst ∧ si.pt ≠ some .ssRest) ∨
      si.r = false ∨ si.w = false ∨ si.x = true) ↔ ¬ SecinfoAccepted s si := by
    simp only [SecinfoAccepted, not_and_or, not_or, ne_eq, Bool.not_eq_true, Bool.not_eq_false]
  simp only [checkSecinfo, bind_error, stopIf_error, stopIf_ok, orStop_error, orStop_ok,
    pure_error, and_false, exists_false, or_false, eq_comm (b := x), hterm, not_not]
  constructor
  · rintro (h | ⟨_, h1, h | ⟨_, _, h, _⟩⟩)
    · exact .inl h
    · exact .inr ⟨h1, h⟩
    · rcases h1.2.2.1 with h' | h' <;> rw [h'] at h <;> cases h
  · rintro (h | ⟨h1, h⟩)
    · exact .inl h
    · exact .inr ⟨(), h1, .inl h⟩

/-- Settling the attributes stops only where a SECINFO is given (R83, R84). -/
theorem securityAttributes_error (x : Stop) :
    securityAttributes s (o.laSi? s) = .error x ↔
      (o.pageinfo s).secinfo ≠ 0#64 ∧
        ((translate s.cfg o.laSi .read = none ∧ x = raisePf .secinfoTranslate o.laSi) ∨
        ∃ p, translate s.cfg o.laSi .read = some p ∧
          ((inEpc s.cfg p = true ∧ x = .refuse .secinfoInEpc) ∨
            (inEpc s.cfg p = false ∧ checkSecinfo s (secinfoAt s p) = .error x))) := by
  unfold EaugOperands.laSi?
  split
  · rename_i h
    simp [securityAttributes, h]
  · rename_i h
    simp only [securityAttributes, bind_error, resolveOrdinary_error, resolveOrdinary_ok, ne_eq, h,
      not_false_eq_true, true_and, eq_comm (b := x)]
    constructor
    · rintro ((h | ⟨p, h1, h2⟩) | ⟨p, ⟨h1, h2⟩, h3⟩)
      · exact .inl h
      · exact .inr ⟨p, h1, .inl h2⟩
      · exact .inr ⟨p, h1, .inr ⟨h2, h3⟩⟩
    · rintro (h | ⟨p, h1, h2 | ⟨h2, h3⟩⟩)
      · exact .inl (.inl h)
      · exact .inl (.inr ⟨p, h1, h2⟩)
      · exact .inr ⟨p, ⟨h1, h2⟩, h3⟩

/-- `LINADDR` outside the enclave raises `#GP(0)`; an overflowing range is refused (R90). -/
theorem checkRange_error (e : Secs) (l : Word) (x : Stop) : checkRange e l = .error x ↔
    (l.toNat < e.baseaddr.toNat ∧ x = raiseGp) ∨
    (e.baseaddr.toNat ≤ l.toNat ∧ 2 ^ 64 ≤ e.baseaddr.toNat + e.size.toNat ∧
      x = .refuse .rangeOverflow) ∨
    (e.baseaddr.toNat + e.size.toNat ≤ l.toNat ∧ e.baseaddr.toNat + e.size.toNat < 2 ^ 64 ∧
      e.baseaddr.toNat ≤ l.toNat ∧ x = raiseGp) := by
  simp only [checkRange, bind_error, stopIf_error, stopIf_ok, Nat.not_lt, Nat.not_le,
    eq_comm (b := x)]
  constructor
  · rintro (h | ⟨_, h1, h | ⟨_, h2, h3, h4⟩⟩)
    · exact .inl h
    · exact .inr (.inl ⟨h1, h⟩)
    · exact .inr (.inr ⟨h3, h2, h1, h4⟩)
  · rintro (h | ⟨h1, h⟩ | ⟨h3, h2, h1, h4⟩)
    · exact .inl h
    · exact .inr ⟨(), h1, .inl h⟩
    · exact .inr ⟨(), h1, .inr ⟨(), h2, h3, h4⟩⟩
/-! ### Where the leaf stops -/

/-- The leaf stops with `x`: one check answers it, and those before that check pass. -/
def EaugStops (s : State) (x : Stop) : Prop :=
  checkAdmission s = .error x ∨ (Admitted s ∧ checkPrivilege s = .error x) ∨
  (Privileged s ∧ pageinfoOperand s = .error x) ∨
  ∃ o,
    (PageinfoAddressed s o ∧ targetOperand s = .error x) ∨
    (TargetAddressed s o ∧ resolveTarget s o.laT = .error x) ∨
    (TargetResolved s o ∧ readPageinfo s o.laPi = .error x) ∨
    (PageinfoRead s o ∧ secinfoOperand s (o.pageinfo s) = .error x) ∨
    (SecinfoAddressed s o ∧ secsOperand s (o.pageinfo s) = .error x) ∨
    (SecsAddressed s o ∧ checkSrcpge (o.pageinfo s) = .error x) ∨
    (SourceAbsent s o ∧ resolveSecs s o.laS = .error x) ∨
    (SecsResolved s o ∧ checkTargetLock s o.laT o.pT = .error x) ∨
    (TargetUnlocked s o ∧ checkTargetFree s o.laT o.pT = .error x) ∨
    (TargetFree s o ∧ securityAttributes s (o.laSi? s) = .error x) ∨
    (AttributesSettled s o ∧ checkCet s o.attrs = .error x) ∨
    (CetEnabled s o ∧ checkSecsLock s o.pS = .error x) ∨
    (SecsUnlocked s o ∧ checkDistinct o.pT o.pS = .error x) ∨
    (SecsDistinct s o ∧ checkSecsValid s o.laS o.pS = .error x) ∨
    (SecsValid s o ∧ checkInitialized s o.pS = .error x) ∨
    (EnclaveInitialized s o ∧
      checkRange (s.secsAt o.pS) (o.pageinfo s).linaddr = .error x) ∨
    (LinaddrInRange s o ∧
      checkShadowEnds (s.secsAt o.pS) (o.pageinfo s).linaddr o.attrs = .error x) ∨
    (NotAtRangeEnd s o ∧ checkToken s.cfg (o.pageinfo s).linaddr o.attrs = .error x)

/-- A leaf that stops does so in one check. -/
theorem eaugStops_of_error (x : Stop) (h : eaugChecks s = .error x) : EaugStops s x := by
  simp only [eaugChecks] at h
  rcases (bind_error _ _ _).1 h with h | ⟨_, h1, h⟩
  · exact .inl h
  rw [checkAdmission_ok] at h1
  rcases (bind_error _ _ _).1 h with h | ⟨_, h2, h⟩
  · exact .inr (.inl ⟨h1, h⟩)
  rw [checkPrivilege_ok] at h2
  rcases (bind_error _ _ _).1 h with h | ⟨laPi, h3, h⟩
  · exact .inr (.inr (.inl ⟨⟨h1, h2⟩, h⟩))
  rw [pageinfoOperand_ok] at h3
  refine .inr (.inr (.inr ?_))
  have k3 : ∀ o : EaugOperands, o.laPi = laPi → PageinfoAddressed s o :=
    fun o ho => ⟨⟨h1, h2⟩, ho ▸ h3⟩
  rcases (bind_error _ _ _).1 h with h | ⟨laT, h4, h⟩
  · exact ⟨⟨laPi, 0, 0, 0, 0, 0, 0, 0, defaultAttrs⟩, .inl ⟨k3 _ rfl, h⟩⟩
  rw [targetOperand_ok] at h4
  rcases (bind_error _ _ _).1 h with h | ⟨pT, h5, h⟩
  · exact ⟨⟨laPi, laT, 0, 0, 0, 0, 0, 0, defaultAttrs⟩, .inr (.inl ⟨⟨k3 _ rfl, h4⟩, h⟩)⟩
  rw [resolveTarget_ok] at h5
  rcases (bind_error _ _ _).1 h with h | ⟨pi, h6, h⟩
  · exact ⟨⟨laPi, laT, 0, 0, 0, pT, 0, 0, defaultAttrs⟩,
      .inr (.inr (.inl ⟨⟨⟨k3 _ rfl, h4⟩, h5⟩, h⟩))⟩
  obtain ⟨pPi, hp1, hp2, rfl, hp3⟩ := (readPageinfo_ok _ _).1 h6
  rcases (bind_error _ _ _).1 h with h | ⟨r, h7, h⟩
  · exact ⟨⟨laPi, laT, 0, 0, pPi, pT, 0, 0, defaultAttrs⟩,
      .inr (.inr (.inr (.inl ⟨⟨⟨⟨k3 _ rfl, h4⟩, h5⟩, hp1, hp2, hp3⟩, h⟩)))⟩
  obtain ⟨laSi, hSi, rfl⟩ : ∃ laSi : LinAddr, ((pageinfoAt s pPi).secinfo ≠ 0#64 →
      lin s (pageinfoAt s pPi).secinfo 64 = some laSi ∧ laSi.toNat % 64 = 0) ∧
      r = if (pageinfoAt s pPi).secinfo = 0#64 then none else some laSi := by
    rcases (secinfoOperand_ok _ _).1 h7 with ⟨hz, rfl⟩ | ⟨la, hz, rfl, hl⟩
    · exact ⟨0, fun hn => absurd hz hn, by rw [if_pos hz]⟩
    · exact ⟨la, fun _ => hl, by rw [if_neg hz]⟩
  have k7 : ∀ (laS : LinAddr) (pSi pS : Nat) (a : SecAttrs),
      SecinfoAddressed s ⟨laPi, laT, laSi, laS, pPi, pT, pSi, pS, a⟩ :=
    fun _ _ _ _ => ⟨⟨⟨⟨k3 _ rfl, h4⟩, h5⟩, hp1, hp2, hp3⟩, hSi⟩
  rcases (bind_error _ _ _).1 h with h | ⟨laS, h8, h⟩
  · exact ⟨⟨laPi, laT, laSi, 0, pPi, pT, 0, 0, defaultAttrs⟩,
      .inr (.inr (.inr (.inr (.inl ⟨k7 .., h⟩))))⟩
  rw [secsOperand_ok] at h8
  rcases (bind_error _ _ _).1 h with h | ⟨_, h9, h⟩
  · exact ⟨⟨laPi, laT, laSi, laS, pPi, pT, 0, 0, defaultAttrs⟩,
      .inr (.inr (.inr (.inr (.inr (.inl ⟨⟨k7 .., h8⟩, h⟩)))))⟩
  rw [checkSrcpge_ok] at h9
  rcases (bind_error _ _ _).1 h with h | ⟨pS, h10, h⟩
  · exact ⟨⟨laPi, laT, laSi, laS, pPi, pT, 0, 0, defaultAttrs⟩,
      .inr (.inr (.inr (.inr (.inr (.inr (.inl ⟨⟨⟨k7 .., h8⟩, h9⟩, h⟩))))))⟩
  rw [resolveSecs_ok] at h10
  have k10 : ∀ (pSi : Nat) (a : SecAttrs),
      SecsResolved s ⟨laPi, laT, laSi, laS, pPi, pT, pSi, pS, a⟩ :=
    fun _ _ => ⟨⟨⟨k7 .., h8⟩, h9⟩, h10⟩
  rcases (bind_error _ _ _).1 h with h | ⟨_, h11, h⟩
  · exact ⟨⟨laPi, laT, laSi, laS, pPi, pT, 0, pS, defaultAttrs⟩,
      .inr (.inr (.inr (.inr (.inr (.inr (.inr (.inl ⟨k10 .., h⟩)))))))⟩
  rw [checkTargetLock_ok] at h11
  rcases (bind_error _ _ _).1 h with h | ⟨_, h12, h⟩
  · exact ⟨⟨laPi, laT, laSi, laS, pPi, pT, 0, pS, defaultAttrs⟩,
      .inr (.inr (.inr (.inr (.inr (.inr (.inr (.inr (.inl ⟨⟨k10 .., h11⟩, h⟩))))))))⟩
  rw [checkTargetFree_ok] at h12
  rcases (bind_error _ _ _).1 h with h | ⟨a, h13, h⟩
  · exact ⟨⟨laPi, laT, laSi, laS, pPi, pT, 0, pS, defaultAttrs⟩,
      .inr (.inr (.inr (.inr (.inr (.inr (.inr (.inr (.inr (.inl
        ⟨⟨⟨k10 .., h11⟩, h12⟩, h⟩)))))))))⟩
  obtain ⟨pSi, k13⟩ : ∃ pSi : Nat,
      AttributesSettled s ⟨laPi, laT, laSi, laS, pPi, pT, pSi, pS, a⟩ := by
    rcases (securityAttributes_ok _ _).1 h13 with ⟨hr, rfl⟩ | ⟨la, p, hr, ht, hi, hc⟩
    · have hz : (pageinfoAt s pPi).secinfo = 0#64 := by
        by_contra hn
        rw [if_neg hn] at hr
        cases hr
      exact ⟨0, ⟨⟨⟨k10 .., h11⟩, h12⟩, fun hn => absurd hz hn⟩, fun _ => rfl,
        fun hn => absurd hz hn⟩
    · have hn : (pageinfoAt s pPi).secinfo ≠ 0#64 := by
        intro hz
        rw [if_pos hz] at hr
        cases hr
      rw [if_neg hn] at hr
      cases hr
      exact ⟨p, ⟨⟨⟨k10 .., h11⟩, h12⟩, fun _ => ⟨ht, hi⟩⟩, fun hz => absurd hz hn,
        fun _ => (checkSecinfo_ok _ _).1 hc⟩
  refine ⟨⟨laPi, laT, laSi, laS, pPi, pT, pSi, pS, a⟩,
    .inr (.inr (.inr (.inr (.inr (.inr (.inr (.inr (.inr (.inr ?_)))))))))⟩
  rcases (bind_error _ _ _).1 h with h | ⟨_, h14, h⟩
  · exact .inl ⟨k13, h⟩
  rw [checkCet_ok] at h14
  rcases (bind_error _ _ _).1 h with h | ⟨_, h15, h⟩
  · exact .inr (.inl ⟨⟨k13, h14⟩, h⟩)
  rw [checkSecsLock_ok] at h15
  rcases (bind_error _ _ _).1 h with h | ⟨_, h16, h⟩
  · exact .inr (.inr (.inl ⟨⟨⟨k13, h14⟩, h15⟩, h⟩))
  rw [checkDistinct_ok] at h16
  rcases (bind_error _ _ _).1 h with h | ⟨_, h17, h⟩
  · exact .inr (.inr (.inr (.inl ⟨⟨⟨⟨k13, h14⟩, h15⟩, h16⟩, h⟩)))
  rw [checkSecsValid_ok] at h17
  have k17 : SecsValid s ⟨laPi, laT, laSi, laS, pPi, pT, pSi, pS, a⟩ :=
    ⟨⟨⟨⟨k13, h14⟩, h15⟩, h16⟩, h17⟩
  rcases (bind_error _ _ _).1 h with h | ⟨_, h18, h⟩
  · exact .inr (.inr (.inr (.inr (.inl ⟨k17, h⟩))))
  rw [checkInitialized_ok] at h18
  rcases (bind_error _ _ _).1 h with h | ⟨_, h19, h⟩
  · exact .inr (.inr (.inr (.inr (.inr (.inl ⟨⟨k17, h18⟩, h⟩)))))
  rw [checkRange_ok] at h19
  rcases (bind_error _ _ _).1 h with h | ⟨_, h20, h⟩
  · exact .inr (.inr (.inr (.inr (.inr (.inr (.inl ⟨⟨⟨k17, h18⟩, h19⟩, h⟩))))))
  rw [checkShadowEnds_ok] at h20
  rcases (bind_error _ _ _).1 h with h | ⟨_, _, h⟩
  · exact .inr (.inr (.inr (.inr (.inr (.inr (.inr ⟨⟨⟨⟨k17, h18⟩, h19⟩, h20⟩, h⟩))))))
  · exact absurd h (pure_error _ _)

/-- A check that stops is where the leaf stops. -/
theorem eaugChecks_error_of (x : Stop) (h : EaugStops s x) : eaugChecks s = .error x := by
  have adm : ∀ _ : Admitted s, checkAdmission s = .ok () := (checkAdmission_ok _).2
  have priv : ∀ _ : Privileged s, checkPrivilege s = .ok () :=
    fun h => (checkPrivilege_ok _).2 h.2
  rcases h with h | ⟨h, h'⟩ | ⟨h, h'⟩ | ⟨o, h⟩
  · simp only [eaugChecks, h, bind_of_error]
  · simp only [eaugChecks, adm h, h', bind_of_ok, bind_of_error]
  · simp only [eaugChecks, adm h.1, priv h, h', bind_of_ok, bind_of_error]
  have pageinfo : ∀ _ : PageinfoAddressed s o, pageinfoOperand s = .ok o.laPi :=
    fun h => (pageinfoOperand_ok _).2 h.2
  have target : ∀ _ : TargetAddressed s o, targetOperand s = .ok o.laT :=
    fun h => (targetOperand_ok _).2 h.2
  have resolved : ∀ _ : TargetResolved s o, resolveTarget s o.laT = .ok o.pT :=
    fun h => (resolveTarget_ok _ _).2 h.2
  have secs : ∀ _ : SecsAddressed s o, secsOperand s (o.pageinfo s) = .ok o.laS :=
    fun h => (secsOperand_ok _ _).2 h.2
  have source : ∀ _ : SourceAbsent s o, checkSrcpge (o.pageinfo s) = .ok () :=
    fun h => (checkSrcpge_ok _ _).2 h.2
  have secsRes : ∀ _ : SecsResolved s o, resolveSecs s o.laS = .ok o.pS :=
    fun h => (resolveSecs_ok _ _).2 h.2
  have unlocked : ∀ _ : TargetUnlocked s o, checkTargetLock s o.laT o.pT = .ok () :=
    fun h => (checkTargetLock_ok _ _ _).2 h.2
  have free : ∀ _ : TargetFree s o, checkTargetFree s o.laT o.pT = .ok () :=
    fun h => (checkTargetFree_ok _ _ _).2 h.2
  have cet : ∀ _ : CetEnabled s o, checkCet s o.attrs = .ok () := fun h => (checkCet_ok _ _).2 h.2
  have secsLock : ∀ _ : SecsUnlocked s o, checkSecsLock s o.pS = .ok () :=
    fun h => (checkSecsLock_ok _ _).2 h.2
  have distinct : ∀ _ : SecsDistinct s o, checkDistinct o.pT o.pS = .ok () :=
    fun h => (checkDistinct_ok _ _ _).2 h.2
  have valid : ∀ _ : SecsValid s o, checkSecsValid s o.laS o.pS = .ok () :=
    fun h => (checkSecsValid_ok _ _ _).2 h.2
  have init : ∀ _ : EnclaveInitialized s o, checkInitialized s o.pS = .ok () :=
    fun h => (checkInitialized_ok _ _).2 h.2
  have range : ∀ _ : LinaddrInRange s o,
      checkRange (s.secsAt o.pS) (o.pageinfo s).linaddr = .ok () :=
    fun h => (checkRange_ok _ _ _).2 h.2
  have ends : ∀ _ : NotAtRangeEnd s o,
      checkShadowEnds (s.secsAt o.pS) (o.pageinfo s).linaddr o.attrs = .ok () :=
    fun h => (checkShadowEnds_ok _ _ _ _).2 h.2
  have toTarget : ∀ _ : TargetResolved s o, eaugChecks s = _ := fun h => by
    simp only [eaugChecks, adm h.1.1.1.1, priv h.1.1.1, pageinfo h.1.1, target h.1, resolved h,
      bind_of_ok]
    exact rfl
  have toSecs : ∀ _ : SecsAddressed s o, eaugChecks s = _ := fun h => by
    simp only [toTarget h.1.1.1, readPageinfo_of h.1.1, secinfoOperand_of h.1, secs h, bind_of_ok]
    exact rfl
  have toFree : ∀ _ : TargetFree s o, eaugChecks s = _ := fun h => by
    simp only [toSecs h.1.1.1.1, source h.1.1.1, secsRes h.1.1, unlocked h.1, free h, bind_of_ok]
    exact rfl
  have toCet : ∀ _ : CetEnabled s o, eaugChecks s = _ := fun h => by
    simp only [toFree h.1.1.1, securityAttributes_of h.1, cet h, bind_of_ok]
    exact rfl
  have toInit : ∀ _ : EnclaveInitialized s o, eaugChecks s = _ := fun h => by
    simp only [toCet h.1.1.1.1, secsLock h.1.1.1, distinct h.1.1, valid h.1, init h, bind_of_ok]
    exact rfl
  rcases h with ⟨h, h'⟩ | ⟨h, h'⟩ | ⟨h, h'⟩ | ⟨h, h'⟩ | ⟨h, h'⟩ | ⟨h, h'⟩ | ⟨h, h'⟩ | ⟨h, h'⟩ |
    ⟨h, h'⟩ | ⟨h, h'⟩ | ⟨h, h'⟩ | ⟨h, h'⟩ | ⟨h, h'⟩ | ⟨h, h'⟩ | ⟨h, h'⟩ | ⟨h, h'⟩ | ⟨h, h'⟩ |
    ⟨h, h'⟩
  · simp only [eaugChecks, adm h.1.1, priv h.1, pageinfo h, h', bind_of_ok, bind_of_error]
  · simp only [eaugChecks, adm h.1.1.1, priv h.1.1, pageinfo h.1, target h, h', bind_of_ok,
      bind_of_error]
  · simp only [toTarget h, h', bind_of_error]
  · simp only [toTarget h.1, readPageinfo_of h, h', bind_of_ok, bind_of_error]
  · simp only [toTarget h.1.1, readPageinfo_of h.1, secinfoOperand_of h, h', bind_of_ok,
      bind_of_error]
  · simp only [toSecs h, h', bind_of_error]
  · simp only [toSecs h.1, source h, h', bind_of_ok, bind_of_error]
  · simp only [toSecs h.1.1, source h.1, secsRes h, h', bind_of_ok, bind_of_error]
  · simp only [toSecs h.1.1.1, source h.1.1, secsRes h.1, unlocked h, h', bind_of_ok,
      bind_of_error]
  · simp only [toFree h, h', bind_of_error]
  · simp only [toFree h.1.1, securityAttributes_of h, h', bind_of_ok, bind_of_error]
  · simp only [toCet h, h', bind_of_error]
  · simp only [toCet h.1, secsLock h, h', bind_of_ok, bind_of_error]
  · simp only [toCet h.1.1, secsLock h.1, distinct h, h', bind_of_ok, bind_of_error]
  · simp only [toCet h.1.1.1, secsLock h.1.1, distinct h.1, valid h, h', bind_of_ok,
      bind_of_error]
  · simp only [toInit h, h', bind_of_error]
  · simp only [toInit h.1, range h, h', bind_of_ok, bind_of_error]
  · simp only [toInit h.1.1, range h.1, ends h, h', bind_of_ok, bind_of_error]

end Sys2Proof.Machine
end

