-- ==== Sys2Proof/Tests/Slice0.lean ====
section
/-!
SUPPORT. The author's own tests. Decoding of words written out from 30_encoding.md R61; ill-formed
layouts and configurations that WellFormed refuses; the reference state CFG0 and a few vectors of
95_test_vectors.md; and, for each statement with hypotheses, a state that meets them.
-/

namespace Sys2Proof.Machine.Tests

-- The kernel evaluations below are many and small: one after another they need one thread.
set_option Elab.async false

/-! ### Decoding, from the encoding of R61 and the vectors E1 and E3 -/

theorem test_decode_bytes_of_r61 :
    decode .mode64 [0b00001111#8, 0b00000001#8, 0b11001111#8] = .instr .enclsEaug [] := by
  decide

theorem test_decode_bytes_of_r61_mode32 :
    decode .mode32 [0x0F#8, 0x01#8, 0xCF#8, 0x90#8] = .instr .enclsEaug [0x90#8] := by
  decide

theorem test_decode_table_word : decodeTableWord 24 0x0F01CF = some .enclsEaug := by decide

/-- E3: an operand-size prefix. -/
theorem test_decode_prefixed :
    decode .mode64 [0x66#8, 0x0F#8, 0x01#8, 0xCF#8] = .prefixedForm := by decide

/-- A `REX` byte is a prefix in 64-bit mode only. -/
theorem test_decode_rex :
    decode .mode64 [0x48#8, 0x0F#8, 0x01#8, 0xCF#8] = .prefixedForm ∧
      decode .mode32 [0x48#8, 0x0F#8, 0x01#8, 0xCF#8] = .otherBytes := by decide

/-- One bit away from each of the three bytes is no instruction of the spec. -/
theorem test_decode_neighbours :
    decode .mode64 [0x0E#8, 0x01#8, 0xCF#8] = .otherBytes ∧
      decode .mode64 [0x0F#8, 0x00#8, 0xCF#8] = .otherBytes ∧
      decode .mode64 [0x0F#8, 0x01#8, 0xD7#8] = .otherBytes ∧
      decode .mode64 [0x0F#8, 0x01#8] = .otherBytes := by decide

/-! ### WellFormed: one ill-formed term for each check -/

theorem test_wf_instr : Instr.wf .enclsEaug = true := by decide

theorem test_wf_default_layout : defaultLayout.wf = true := by decide +kernel

/-- A field past the 32 bytes of PAGEINFO. -/
theorem test_wf_pageinfo_outside :
    Layout.pageinfoWf { defaultLayout with offSecs := 25 } = false := by decide

/-- Two fields of PAGEINFO that overlap. -/
theorem test_wf_pageinfo_overlap :
    Layout.pageinfoWf { defaultLayout with offSrcpge := 4 } = false := by decide

/-- A bit past the 512 bits of SECINFO. -/
theorem test_wf_secinfo_outside :
    Layout.secinfoWf { defaultLayout with bitX := 512 } = false := by decide +kernel

/-- Two permissions on one bit. -/
theorem test_wf_secinfo_same_bit :
    Layout.secinfoWf { defaultLayout with bitW := 0 } = false := by decide +kernel

/-- The page type over the permissions. -/
theorem test_wf_secinfo_pt_overlap :
    Layout.secinfoWf { defaultLayout with ptLow := 2 } = false := by decide +kernel

/-- A state bit that is reserved too. -/
theorem test_wf_secinfo_state_reserved :
    Layout.secinfoWf { defaultLayout with stateMask := 0x78#512 } = false := by decide +kernel

/-- A page-type number listed twice. -/
theorem test_wf_pt_twice :
    Layout.ptCodesWf { defaultLayout with ptCodes := (5, .ssRest) :: defaultLayout.ptCodes } =
      false := by decide

/-- No number for `PT_SS_REST`. -/
theorem test_wf_pt_missing :
    Layout.ptCodesWf { defaultLayout with ptCodes := [(0, .secs), (2, .reg), (5, .ssFirst)] } =
      false := by decide

/-- A translation that moves page offsets. -/
theorem test_wf_translation :
    Config.wf { resetConfig with translation := [⟨0, 4096, 8, true, true, true⟩] } = false := by
  decide +kernel

/-! ### The reference state CFG0 of 95_test_vectors.md section 2 -/

/-- Every page mapped to itself, for every kind of access, but for the page at `a`. -/
def mappedBut (a : Nat) : List TransEntry :=
  [⟨0, a, 0, true, true, true⟩, ⟨a + 4096, 2 ^ 64, a + 4096, true, true, true⟩]

/-- CFG0, with 2 of the target's bytes listed as `0xCC`. -/
def cfg0 : State :=
  { State.reset with
    cfg :=
      { resetConfig with
        epc := [⟨0x80000, 256⟩]
        translation := [⟨0, 2 ^ 64, 0, true, true, true⟩] }
    rax := 0xD#64
    rbx := 0x100000#64
    rcx := 0x80005000#64
    pc := 0x401000#64
    cr4Cet := true
    mem :=
      [(0x100001, 0x30#8), (0x100004, 0x01#8), (0x10001B, 0x80#8), (0x80005000, 0xCC#8),
        (0x80005FFF, 0xCC#8)]
    epcm := [(0x80000, { unlistedEpcm with valid := true })]
    secs :=
      [(0x80000,
        { baseaddr := 0x100000000#64
          size := 0x100000#64
          mode64bit := true
          initialized := true })]
    code := [(0x401000, 0x0F#8), (0x401001, 0x01#8), (0x401002, 0xCF#8)] }

/-- The operands CFG0 resolves to. -/
def ops0 : EaugOperands where
  laPi := 0x100000#64
  laT := 0x80005000#64
  laSi := 0#64
  laS := 0x80000000#64
  pPi := 0x100000
  pT := 0x80005000
  pSi := 0
  pS := 0x80000000
  attrs := defaultAttrs

/-- An 8-byte field of memory set. -/
def poke (s : State) (a : Nat) (v : Word) : State := { s with mem := write64 s.mem a v }

/-- `SI = f` of 95_test_vectors.md section 4. -/
def withSecinfo (s : State) (f : Word) : State := poke (poke s 0x100010 0x100040#64) 0x100040 f

/-- The operands of `SI = f`. -/
def opsSi (pt : PageType) : EaugOperands :=
  { ops0 with
    laSi := 0x100040#64
    pSi := 0x100040
    attrs := { r := true, w := true, x := false, pt := pt } }

/-- CFG0 in 32-bit mode with a flat DS, as in vector V54. -/
def flat32 (s : State) : State :=
  { s with
    cfg := { s.cfg with mode := .mode32 }
    ds := { base := 0#32, limit := 0xFFFFFFFF#32 } }

/-- The state with the page at `a` not mapped. -/
def unmapped (s : State) (a : Nat) : State :=
  { s with cfg := { s.cfg with translation := mappedBut a } }

/-- The state with a page of the EPC held by another thread. -/
def locked (s : State) (frame : Nat) (l : Lock) : State := { s with locks := [(frame, l)] }

/-- The state with another SECS record. -/
def withSecs (s : State) (base size : Word) : State :=
  { s with
    secs :=
      [(0x80000, { baseaddr := base, size := size, mode64bit := true, initialized := true })] }

/-- The next state of an outcome, if it has one. -/
def nextState : Outcome → Option State
  | .next t => some t
  | _ => none

/-- The state after an execution, or the state itself where there is none. -/
def after (s : State) : State := (nextState (exec .enclsEaug s)).getD s

theorem eq_next (x : Outcome) (s : State) (h : (nextState x).isSome = true) :
    x = .next ((nextState x).getD s) := by
  cases x with
  | next t => rfl
  | fault f => cases h
  | refused r => cases h

theorem exec_after (s : State) (h : (nextState (exec .enclsEaug s)).isSome = true) :
    exec .enclsEaug s = .next (after s) := eq_next _ s h

/-- A step is the execution where the bytes are those of the instruction. -/
theorem step_after (s : State) (hv : s.vmExited = false)
    (hd : decode s.cfg.mode s.fetch = .instr .enclsEaug (List.replicate 12 0#8))
    (h : (nextState (exec .enclsEaug s)).isSome = true) : step s = .next (after s) := by
  unfold step
  rw [hv, hd]
  exact exec_after s h

/-! ### Vectors -/

/-- V1: the entry of END1, the instruction pointer, and zeros at both ends of the page. -/
theorem test_v1 :
    (after cfg0).epcmAt 0x80005000 =
        { valid := true, r := true, w := true, x := false, pt := .reg,
          enclaveAddress := 0x100003000#64, blocked := false, pending := true, modified := false,
          pr := false, enclaveSecs := 0x80000000 } ∧
      (after cfg0).pc = 0x401003#64 ∧ (after cfg0).byteAt 0x80005000 = 0#8 ∧
      (after cfg0).byteAt 0x80005FFF = 0#8 := by
  decide +kernel

/-- V18: the token `0x0000_0001_0000_4001` in the last 8 bytes. -/
theorem test_v18 :
    readBytes (after (withSecinfo cfg0 0x503#64)).mem 0x80005FF7 9 =
      [0x00#8, 0x01#8, 0x40#8, 0x00#8, 0x00#8, 0x01#8, 0x00#8, 0x00#8, 0x00#8] := by
  decide +kernel

/-! ### A witness for the hypotheses of each statement -/

theorem witness_EncodeThenDecode : Instr.wf .enclsEaug = true := by decide

theorem witness_DecodedBytesAreEncoding :
    decode .mode32 [0x0F#8, 0x01#8, 0xCF#8, 0xFF#8] = .instr .enclsEaug [0xFF#8] := by decide

theorem witness_PrefixedEncodingIsPrefixedForm :
    [0x66#8, 0xF3#8, 0x4F#8] ≠ ([] : List Byte) ∧
      ∀ b ∈ [0x66#8, 0xF3#8, 0x4F#8], isPrefix .mode64 b = true := by decide

theorem witness_StepRunsDecoded :
    cfg0.vmExited = false ∧
      decode cfg0.cfg.mode cfg0.fetch = .instr .enclsEaug (List.replicate 12 0#8) ∧
      Instr.wf .enclsEaug = true := by decide +kernel

theorem witness_StepRefusesOtherBytes :
    (cfg0.vmExited = false ∧ decode .mode64 (State.fetch { cfg0 with
        code := [(0x401000, 0x66#8), (0x401001, 0x0F#8), (0x401002, 0x01#8),
          (0x401003, 0xCF#8)] }) = .prefixedForm) ∧
      State.reset.vmExited = false ∧
      decode State.reset.cfg.mode State.reset.fetch = .otherBytes := by decide +kernel

theorem witness_NoStepAfterVmExit : (cfg0.deliverVmExit 0x80005000 0x80005000#64).vmExited = true :=
  rfl

theorem witness_PlacedWordRuns :
    State.reset.code.wf = true ∧ State.reset.vmExited = false ∧ cfg0.code.wf = true := by
  decide +kernel

/-- Each of the three clauses: the second for each way of being unavailable, the last at the least
instruction pointer that is too near the top of the address space in each mode, and for another
instruction length. -/
theorem witness_AdmissionRefusals :
    State.eax { cfg0 with rax := 0xC#64 } ≠ 0x0D#32 ∧
      cfg0.eax = 0x0D#32 ∧
      Cpuid.sgx2 { cfg0.cfg.cpuid with sgx2 := false } = false ∧
      Config.sgxEnabled { cfg0.cfg with sgxEnabled := false } = false ∧
      Config.protectedMode { cfg0.cfg with protectedMode := false } = false ∧
      Config.outsideEnclave { cfg0.cfg with outsideEnclave := false } = false ∧
      LeafAvailable cfg0.cfg ∧
      2 ^ addressWidth cfg0.cfg.mode ≤
        (0xFFFFFFFFFFFFFFFD#64 : Word).toNat + cfg0.cfg.enclsLength ∧
      2 ^ addressWidth (flat32 cfg0).cfg.mode ≤
        (0xFFFFFFFD#64 : Word).toNat + (flat32 cfg0).cfg.enclsLength ∧
      2 ^ addressWidth cfg0.cfg.mode ≤
        (0xFFFFFFFFFFFFFFFC#64 : Word).toNat +
          Config.enclsLength { cfg0.cfg with enclsLength := 4 } := by decide +kernel

/-- R65: each condition of availability is enough for the refusal, and only where `EAX` is `0DH`. -/
theorem test_unavailable_refused :
    (∀ c ∈ [{ cfg0.cfg with cpuid := { cfg0.cfg.cpuid with sgx2 := false } },
        { cfg0.cfg with sgxEnabled := false }, { cfg0.cfg with protectedMode := false },
        { cfg0.cfg with outsideEnclave := false }],
      exec .enclsEaug { cfg0 with cfg := c, cpl := 3#2 } = .refused .featureAbsent) ∧
      exec .enclsEaug { cfg0 with rax := 0xC#64, cfg := { cfg0.cfg with sgxEnabled := false } } =
        .refused .otherLeaf := by
  refine ⟨?_, rfl⟩
  simp only [List.forall_mem_cons]
  exact ⟨rfl, rfl, rfl, rfl, fun _ h => nomatch h⟩

theorem witness_UnprivilegedRaisesGp :
    (Admitted { cfg0 with cpl := 1#2 } ∧ (1#2 : BitVec 2) ≠ 0#2) ∧
      Admitted { cfg0 with cpl := 3#2 } ∧ (3#2 : BitVec 2) ≠ 0#2 := by decide +kernel

/-- The first address that is not canonical, V3's address but for one byte, and in 32-bit mode an
operand whose last byte is the first past the limit. -/
theorem witness_PageinfoAddressRaisesGp :
    (Privileged { cfg0 with rbx := 0x800000000000#64 } ∧
        lin cfg0 0x800000000000#64 32 = none) ∧
      (Privileged { cfg0 with rbx := 0x100001#64 } ∧
        lin cfg0 0x100001#64 32 = some 0x100001#64 ∧ (0x100001#64 : Word).toNat % 32 ≠ 0) ∧
      lin { flat32 cfg0 with ds := { base := 0#32, limit := 0x10001E#32 } } 0x100000#64 32 =
        none := by
  (repeat' refine And.intro ?_ ?_) <;> decide +kernel

theorem witness_TargetAddressRaisesGp :
    (PageinfoAddressed { cfg0 with rcx := 0xFFFF7FFFFFFFF000#64 } ops0 ∧
        lin cfg0 0xFFFF7FFFFFFFF000#64 4096 = none) ∧
      PageinfoAddressed { cfg0 with rcx := 0x80005800#64 } ops0 ∧
      lin cfg0 0x80005800#64 4096 = some 0x80005800#64 ∧
      (0x80005800#64 : Word).toNat % 4096 ≠ 0 := by
  (repeat' refine And.intro ?_ ?_) <;> decide +kernel

/-- V58, and the first page past the EPC. -/
theorem witness_TargetOutsideEpcRaisesPf :
    (TargetAddressed (unmapped cfg0 0x80005000) ops0 ∧
        translate (unmapped cfg0 0x80005000).cfg ops0.laT .write = none) ∧
      TargetAddressed { cfg0 with rcx := 0x80100000#64 } { ops0 with laT := 0x80100000#64 } ∧
      translate cfg0.cfg 0x80100000#64 .write = some 0x80100000 ∧
      inEpc cfg0.cfg 0x80100000 = false := by
  (repeat' refine And.intro ?_ ?_) <;> decide +kernel

/-- V42; a PAGEINFO on the first page of the EPC; and in 32-bit mode a SECS pointer of `2^32`. -/
theorem witness_PageinfoReadStops :
    (TargetResolved (unmapped cfg0 0x100000) ops0 ∧
        translate (unmapped cfg0 0x100000).cfg ops0.laPi .read = none) ∧
      (TargetResolved { cfg0 with rbx := 0x80000000#64 } { ops0 with laPi := 0x80000000#64 } ∧
        translate cfg0.cfg 0x80000000#64 .read = some 0x80000000 ∧
        inEpc cfg0.cfg 0x80000000 = true) ∧
      TargetResolved (flat32 (poke cfg0 0x100018 0x100000000#64)) ops0 ∧
      translate (flat32 cfg0).cfg ops0.laPi .read = some 0x100000 ∧
      inEpc (flat32 cfg0).cfg 0x100000 = false ∧
      2 ^ 32 ≤ (pageinfoAt (flat32 (poke cfg0 0x100018 0x100000000#64)) 0x100000).secs.toNat := by
  (repeat' refine And.intro ?_ ?_) <;> decide +kernel

theorem witness_SecinfoAddressRaisesGp :
    (PageinfoRead (poke cfg0 0x100010 0x800000000000#64) ops0 ∧
        (ops0.pageinfo (poke cfg0 0x100010 0x800000000000#64)).secinfo ≠ 0#64 ∧
        lin cfg0 0x800000000000#64 64 = none) ∧
      PageinfoRead (poke cfg0 0x100010 0x100060#64) ops0 ∧
      (ops0.pageinfo (poke cfg0 0x100010 0x100060#64)).secinfo ≠ 0#64 ∧
      lin cfg0 0x100060#64 64 = some 0x100060#64 ∧ (0x100060#64 : Word).toNat % 64 ≠ 0 := by
  (repeat' refine And.intro ?_ ?_) <;> decide +kernel

/-- Each clause: a SECS that is not canonical, V8 and V9. -/
theorem witness_SecsOrLinaddrMisalignedRaisesGp :
    (SecinfoAddressed (poke cfg0 0x100018 0x800000000000#64) ops0 ∧
        lin cfg0 0x800000000000#64 4096 = none) ∧
      (SecinfoAddressed (poke cfg0 0x100018 0x80000800#64) ops0 ∧
        lin cfg0 0x80000800#64 4096 = some 0x80000800#64 ∧
        (0x80000800#64 : Word).toNat % 4096 ≠ 0) ∧
      SecinfoAddressed (poke cfg0 0x100000 0x100003008#64) ops0 ∧
      lin cfg0 0x80000000#64 4096 = some 0x80000000#64 ∧
      (ops0.pageinfo (poke cfg0 0x100000 0x100003008#64)).linaddr.toNat % 4096 ≠ 0 := by
  (repeat' refine And.intro ?_ ?_) <;> decide +kernel

/-- The highest bit of the field alone. -/
theorem witness_SourcePageRaisesGp :
    SecsAddressed (poke cfg0 0x100008 0x8000000000000000#64) ops0 ∧
      (ops0.pageinfo (poke cfg0 0x100008 0x8000000000000000#64)).srcpge ≠ 0#64 := by
  (repeat' refine And.intro ?_ ?_) <;> decide +kernel

/-- V59, and the last page before the EPC. -/
theorem witness_SecsOutsideEpcRaisesPf :
    (SourceAbsent (unmapped cfg0 0x80000000) ops0 ∧
        translate (unmapped cfg0 0x80000000).cfg ops0.laS .readwrite = none) ∧
      SourceAbsent (poke cfg0 0x100018 0x7FFFF000#64) { ops0 with laS := 0x7FFFF000#64 } ∧
      translate cfg0.cfg 0x7FFFF000#64 .readwrite = some 0x7FFFF000 ∧
      inEpc cfg0.cfg 0x7FFFF000 = false := by
  (repeat' refine And.intro ?_ ?_) <;> decide +kernel

/-- V13, and V12 with a shared holder. -/
theorem witness_TargetInUseExitsOrRaisesGp :
    (SecsResolved { locked cfg0 0x80005 .exclusive with vmxNonRoot := true, epcVirtExt := true }
          ops0 ∧
        (locked cfg0 0x80005 .exclusive).lockAt ops0.pT ≠ .free) ∧
      SecsResolved (locked cfg0 0x80005 .shared) ops0 ∧
      (locked cfg0 0x80005 .shared).lockAt ops0.pT ≠ .free ∧
      (locked cfg0 0x80005 .shared).vmxNonRoot = false := by
  (repeat' refine And.intro ?_ ?_) <;> decide +kernel

/-- V15: the target is a SECS page already. -/
theorem witness_ValidTargetRaisesPf :
    TargetUnlocked { cfg0 with rcx := 0x80000000#64 }
        { ops0 with laT := 0x80000000#64, pT := 0x80000000 } ∧
      (cfg0.epcmAt 0x80000000).valid = true := by
  (repeat' refine And.intro ?_ ?_) <;> decide +kernel

/-- V60 (the SECINFO's page alone not mapped), and a SECINFO in the EPC. -/
theorem witness_SecinfoReadStops :
    (TargetFree (unmapped (poke cfg0 0x100010 0x200000#64) 0x200000)
          { ops0 with laSi := 0x200000#64 } ∧
        (ops0.pageinfo (poke cfg0 0x100010 0x200000#64)).secinfo ≠ 0#64 ∧
        translate (unmapped cfg0 0x200000).cfg 0x200000#64 .read = none) ∧
      TargetFree (poke cfg0 0x100010 0x80007000#64) { ops0 with laSi := 0x80007000#64 } ∧
      (ops0.pageinfo (poke cfg0 0x100010 0x80007000#64)).secinfo ≠ 0#64 ∧
      translate cfg0.cfg 0x80007000#64 .read = some 0x80007000 ∧
      inEpc cfg0.cfg 0x80007000 = true := by
  (repeat' refine And.intro ?_ ?_) <;> decide +kernel

/-- Each of the six terms, and a state bit on a SECINFO that passes them. -/
theorem witness_SecinfoRejected :
    (SecinfoRead (withSecinfo cfg0 0x503#64) (opsSi .ssFirst) ∧
        ((opsSi .ssFirst).pageinfo (withSecinfo cfg0 0x503#64)).secinfo ≠ 0#64) ∧
      (secinfoAt (withSecinfo cfg0 0x543#64) 0x100040).reservedNonzero = true ∧
      Cpuid.leaf12Eax6 { cfg0.cfg.cpuid with leaf12Eax6 := false } = false ∧
      (secinfoAt (withSecinfo cfg0 0x203#64) 0x100040).pt = some .reg ∧
      (secinfoAt (withSecinfo cfg0 0x502#64) 0x100040).r = false ∧
      (secinfoAt (withSecinfo cfg0 0x501#64) 0x100040).w = false ∧
      (secinfoAt (withSecinfo cfg0 0x507#64) 0x100040).x = true ∧
      SecinfoRead (withSecinfo cfg0 0x523#64) (opsSi .ssFirst) ∧
      SecinfoAccepted (withSecinfo cfg0 0x523#64)
        (secinfoAt (withSecinfo cfg0 0x523#64) 0x100040) ∧
      (secinfoAt (withSecinfo cfg0 0x523#64) 0x100040).stateNonzero = true := by
  (repeat' refine And.intro ?_ ?_) <;> decide +kernel

/-- V26 for each shadow-stack type, and V1. -/
theorem witness_ShadowStackNeedsCet :
    (AttributesSettled { withSecinfo cfg0 0x503#64 with cr4Cet := false } (opsSi .ssFirst)) ∧
      (AttributesSettled { withSecinfo cfg0 0x603#64 with cr4Cet := false } (opsSi .ssRest)) ∧
      EaugSucceeds cfg0 ops0 ∧ (ops0.pageinfo cfg0).secinfo = 0#64 := by
  (repeat' refine And.intro ?_ ?_) <;> decide +kernel

theorem witness_LockedSecsRaisesGp :
    CetEnabled (locked cfg0 0x80000 .exclusive) ops0 ∧
      (locked cfg0 0x80000 .exclusive).lockAt ops0.pS = .exclusive := by
  (repeat' refine And.intro ?_ ?_) <;> decide +kernel

/-- V63: both pointers resolve to the free page. -/
theorem witness_TargetAsSecsRefused :
    SecsUnlocked (poke cfg0 0x100018 0x80005000#64)
      { ops0 with laS := 0x80005000#64, pS := 0x80005000 } := by
  (repeat' refine And.intro ?_ ?_) <;> decide +kernel

/-- V29 and V30. -/
theorem witness_InvalidSecsRaisesPf :
    (SecsDistinct { cfg0 with epcm := [] } ops0 ∧
        (State.epcmAt { cfg0 with epcm := [] } ops0.pS).valid = false) ∧
      SecsDistinct
        { cfg0 with epcm := [(0x80000, { unlistedEpcm with valid := true, pt := .reg })] } ops0 ∧
      (State.epcmAt
        { cfg0 with epcm := [(0x80000, { unlistedEpcm with valid := true, pt := .reg })] }
        ops0.pS).pt ≠ .secs := by
  (repeat' refine And.intro ?_ ?_) <;> decide +kernel

/-- V31. -/
theorem witness_UninitializedEnclaveRaisesGp :
    SecsValid { cfg0 with secs := [] } ops0 ∧
      (State.secsAt { cfg0 with secs := [] } ops0.pS).initialized = false := by
  (repeat' refine And.intro ?_ ?_) <;> decide +kernel

/-- Each clause at its bound: one page below the base, a range that ends at `2^64`, and V33's
`LINADDR` at the end of the range. -/
theorem witness_LinaddrOutsideEnclaveStops :
    (EnclaveInitialized (poke cfg0 0x100000 0xFFFFF000#64) ops0 ∧
        (ops0.pageinfo (poke cfg0 0x100000 0xFFFFF000#64)).linaddr.toNat <
          (cfg0.secsAt ops0.pS).baseaddr.toNat) ∧
      (EnclaveInitialized (withSecs cfg0 0x100000000#64 0xFFFFFFFF00000000#64) ops0 ∧
        (0x100000000#64 : Word).toNat ≤ (ops0.pageinfo cfg0).linaddr.toNat ∧
        2 ^ 64 ≤ (0x100000000#64 : Word).toNat + (0xFFFFFFFF00000000#64 : Word).toNat) ∧
      EnclaveInitialized (poke cfg0 0x100000 0x100100000#64) ops0 ∧
      (cfg0.secsAt ops0.pS).baseaddr.toNat + (cfg0.secsAt ops0.pS).size.toNat < 2 ^ 64 ∧
      (cfg0.secsAt ops0.pS).baseaddr.toNat + (cfg0.secsAt ops0.pS).size.toNat ≤
        (ops0.pageinfo (poke cfg0 0x100000 0x100100000#64)).linaddr.toNat := by
  (repeat' refine And.intro ?_ ?_) <;> decide +kernel

/-- V36 and V37, with each of the two types. -/
theorem witness_ShadowStackAtRangeEndRaisesGp :
    (LinaddrInRange (poke (withSecinfo cfg0 0x503#64) 0x100000 0x100000000#64) (opsSi .ssFirst) ∧
        ((opsSi .ssFirst).pageinfo
          (poke (withSecinfo cfg0 0x503#64) 0x100000 0x100000000#64)).linaddr.toNat =
            (cfg0.secsAt ops0.pS).baseaddr.toNat) ∧
      LinaddrInRange (poke (withSecinfo cfg0 0x603#64) 0x100000 0x1000FF000#64) (opsSi .ssRest) ∧
      (((opsSi .ssRest).pageinfo
          (poke (withSecinfo cfg0 0x603#64) 0x100000 0x1000FF000#64)).linaddr.toNat : Int) =
        (cfg0.secsAt ops0.pS).baseaddr.toNat + (cfg0.secsAt ops0.pS).size.toNat - 0x1000 := by
  (repeat' refine And.intro ?_ ?_) <;> decide +kernel

/-- A `LINADDR` on the top page of the address space, in a range whose end it is not the last page
before. -/
theorem witness_TokenOverflowRefused :
    NotAtRangeEnd
        (poke (withSecs (withSecinfo cfg0 0x503#64) 0x100000000#64 0xFFFFFFFEFFFFFFFF#64) 0x100000
          0xFFFFFFFFFFFFF000#64) (opsSi .ssFirst) ∧
      TokenDue cfg0 (opsSi .ssFirst) ∧ 2 ^ 64 ≤ (0xFFFFFFFFFFFFF000#64 : Word).toNat + 0x1000 := by
  (repeat' refine And.intro ?_ ?_) <;> decide +kernel

/-- V1, V18, V19, V54 and V28: with and without a SECINFO, in both modes, and with a SECS that others
share. Also for the statements whose
premises are these and the canonical form of memory or of the EPCM. -/
theorem witness_EaugCompletes :
    EaugSucceeds cfg0 ops0 ∧ EaugSucceeds (withSecinfo cfg0 0x503#64) (opsSi .ssFirst) ∧
      EaugSucceeds (withSecinfo cfg0 0x603#64) (opsSi .ssRest) ∧
      EaugSucceeds (flat32 cfg0) ops0 ∧ EaugSucceeds (locked cfg0 0x80000 .shared) ops0 ∧
      cfg0.storageWf = true := by
  (repeat' refine And.intro ?_ ?_) <;> decide +kernel

theorem witness_StepSucceedsExactlyWhen : cfg0.vmExited = false := by decide

theorem witness_TargetPageZeroed :
    cfg0.mem.wf = true ∧ EaugSucceeds cfg0 ops0 ∧ ¬ TokenDue cfg0 ops0 := by
  (repeat' refine And.intro ?_ ?_) <;> decide +kernel

theorem witness_TokenStored :
    (withSecinfo cfg0 0x503#64).mem.wf = true ∧
      EaugSucceeds (withSecinfo cfg0 0x503#64) (opsSi .ssFirst) ∧
      TokenDue (withSecinfo cfg0 0x503#64) (opsSi .ssFirst) := by
  (repeat' refine And.intro ?_ ?_) <;> decide +kernel

theorem witness_EpcmEntryWritten :
    Table.wf unlistedEpcm cfg0.epcm = true ∧ EaugSucceeds cfg0 ops0 ∧
      frameOf 0x80004FFF ≠ frameOf ops0.pT ∧ frameOf 0x80006000 ≠ frameOf ops0.pT := by
  (repeat' refine And.intro ?_ ?_) <;> decide +kernel

theorem witness_DefaultAttributesGiven :
    Table.wf unlistedEpcm cfg0.epcm = true ∧ EaugSucceeds cfg0 ops0 ∧
      (ops0.pageinfo cfg0).secinfo = 0#64 := by
  (repeat' refine And.intro ?_ ?_) <;> decide +kernel

theorem witness_SuccessFrame :
    cfg0.mem.wf = true ∧ Table.wf unlistedEpcm cfg0.epcm = true ∧ cfg0.vmExited = false ∧
      exec .enclsEaug cfg0 = .next (after cfg0) ∧ (after cfg0).vmExited = false ∧
      lin cfg0 (effectiveAddress cfg0.cfg.mode cfg0.rcx) 4096 = some 0x80005000#64 ∧
      translate cfg0.cfg 0x80005000#64 .write = some 0x80005000 := by
  refine ⟨by decide +kernel, by decide +kernel, rfl, exec_after _ (by decide +kernel),
    by decide +kernel, by decide +kernel, by decide +kernel⟩

theorem witness_OrdinaryMemoryUnchanged :
    cfg0.mem.wf = true ∧ cfg0.cfg.keepsPageOffsets = true ∧
      exec .enclsEaug cfg0 = .next (after cfg0) ∧ inEpc cfg0.cfg 0x7FFFFFFF = false ∧
      inEpc cfg0.cfg 0x80100000 = false :=
  ⟨by decide +kernel, by decide +kernel, exec_after _ (by decide +kernel), by decide +kernel,
    by decide +kernel⟩

theorem witness_UpperHalvesIgnored :
    (0xFFFFFFFF0000000D#64 : Word).setWidth 32 = cfg0.eax ∧
      (flat32 cfg0).cfg.mode = .mode32 ∧
      (0xDEADBEEF00100000#64 : Word).setWidth 32 = cfg0.rbx.setWidth 32 ∧
      (0x180005000#64 : Word).setWidth 32 = cfg0.rcx.setWidth 32 := by decide +kernel

/-- The target's old `0xCC` bytes dropped. -/
theorem witness_OldPageContentsIrrelevant :
    cfg0.mem.wf = true ∧ (fillZero cfg0.mem 0x80005000 4096).wf = true ∧ cfg0.cfg.wf = true ∧
      EaugSucceeds cfg0 ops0 ∧
      (∀ a : Nat, frameOf a ≠ frameOf ops0.pT →
        readByte (fillZero cfg0.mem 0x80005000 4096) a = cfg0.byteAt a) ∧
      readByte (fillZero cfg0.mem 0x80005000 4096) 0x80005FFF ≠ cfg0.byteAt 0x80005FFF := by
  refine ⟨by decide +kernel, by decide +kernel, by decide +kernel, witness_EaugCompletes.1, ?_,
    by decide +kernel⟩
  intro a ha
  rw [readByte_fillZero, if_neg]
  · rfl
  · intro h
    apply ha
    show a / 4096 = 0x80005000 / 4096
    omega

theorem witness_SecondRunRaisesPf :
    cfg0.mem.wf = true ∧ Table.wf unlistedEpcm cfg0.epcm = true ∧ cfg0.cfg.wf = true ∧
      EaugSucceeds cfg0 ops0 ∧ exec .enclsEaug cfg0 = .next (after cfg0) ∧
      (after cfg0).pc.toNat + cfg0.cfg.enclsLength < 2 ^ addressWidth cfg0.cfg.mode :=
  ⟨by decide +kernel, by decide +kernel, by decide +kernel, witness_EaugCompletes.1,
    exec_after _ (by decide +kernel), by decide +kernel⟩

theorem witness_StoreIsLittleEndian :
    cfg0.mem.wf = true ∧ (0x80005000 < 0x80005001 ∨ 0x80005001 + 8 ≤ 0x80005000) := by decide

/-- A step that succeeds; for every statement about a step's next state. -/
theorem witness_StepKeepsInputs :
    step cfg0 = .next (after cfg0) ∧ (after cfg0).vmExited = false :=
  ⟨step_after _ rfl (by decide +kernel) (by decide +kernel), by decide +kernel⟩

theorem witness_StepKeepsPcInRange :
    step cfg0 = .next (after cfg0) ∧ (after cfg0).vmExited = false := witness_StepKeepsInputs

/-- V13: the target held exclusively, in VMX non-root operation with the extensions. -/
def conflict : State :=
  { locked cfg0 0x80005 .exclusive with vmxNonRoot := true, epcVirtExt := true }

theorem witness_VmExitOnlyOnConflict :
    conflict.vmExited = false ∧
      exec .enclsEaug conflict = .next (conflict.deliverVmExit 0x80005000 0x80005000#64) ∧
      (conflict.deliverVmExit 0x80005000 0x80005000#64).vmExited = true := ⟨rfl, rfl, rfl⟩

/-- V12, V15 and V56: a `#GP(0)`, a `#PF` and a refusal. -/
theorem witness_GpHasListedCause :
    exec .enclsEaug (locked cfg0 0x80005 .exclusive) = .fault .gp0 := rfl

theorem witness_PfHasListedSite :
    exec .enclsEaug { cfg0 with rcx := 0x80000000#64 } =
      .fault (.pf 0x80000000#64 (Config.pfErrorCode .targetValid)) := rfl

theorem witness_RefusalHasListedReason :
    exec .enclsEaug { cfg0 with rax := 0xC#64 } = .refused .otherLeaf := rfl

theorem witness_StepKeepsCanonicalForm :
    cfg0.storageWf = true ∧ step cfg0 = .next (after cfg0) :=
  ⟨by decide +kernel, witness_StepKeepsInputs.1⟩

/-- The state after V1 has a pending page that meets the invariants, and a second page can be added to
it. -/
def twice : State := { after cfg0 with rcx := 0x80006000#64, pc := 0x401000#64 }

theorem twice_epcm : twice.epcm =
    [(0x80000, { unlistedEpcm with valid := true }),
      (0x80005,
        { valid := true, r := true, w := true, x := false, pt := .reg,
          enclaveAddress := 0x100003000#64, blocked := false, pending := true, modified := false,
          pr := false, enclaveSecs := 0x80000000 })] := by decide +kernel

theorem twice_pending (p : Nat) (hp : (twice.epcmAt p).pending = true) : frameOf p = 0x80005 := by
  unfold State.epcmAt at hp
  rw [twice_epcm] at hp
  simp only [Table.get_cons, Table.get_nil] at hp
  by_contra hf
  rw [if_neg hf] at hp
  split at hp
  · cases hp
  · cases hp

theorem witness_StepKeepsPendingPagesOwned :
    Table.wf unlistedEpcm twice.epcm = true ∧ twice.pendingPagesOwned ∧
      step twice = .next (after twice) ∧ (twice.epcmAt 0x80005000).pending = true := by
  refine ⟨by decide +kernel, ?_, step_after _ rfl (by decide +kernel) (by decide +kernel),
    by decide +kernel⟩
  intro p hv hp
  have hf := twice_pending p hp
  have he : twice.epcmAt p = twice.epcmAt 0x80005000 := by
    unfold State.epcmAt
    rw [hf]
    rfl
  have hi : inEpc twice.cfg p = inEpc twice.cfg 0x80005000 := by
    unfold inEpc
    rw [hf]
    rfl
  rw [he, hi]
  unfold PendingEntryOk
  decide +kernel

theorem witness_StepKeepsPendingPagesZero :
    twice.storageWf = true ∧ twice.cfg.keepsPageOffsets = true ∧ twice.pendingPagesZero ∧
      step twice = .next (after twice) := by
  refine ⟨by decide +kernel, by decide +kernel, ?_,
    step_after _ rfl (by decide +kernel) (by decide +kernel)⟩
  intro p _ hp i hi _
  have hf := twice_pending p hp
  have hm : twice.mem = [(0x100001, 0x30#8), (0x100004, 0x01#8), (0x10001B, 0x80#8)] := by
    decide +kernel
  unfold State.byteAt pageByte readByte
  rw [hf, hm]
  simp only [Table.get_cons, Table.get_nil, unlistedByte]
  rw [if_neg (by omega), if_neg (by omega), if_neg (by omega)]

end Sys2Proof.Machine.Tests
end

section
/-!
PROOF. The leaf takes no part in the flags (10_state.md R13): its checks read none, and both of its ways
to a next state, the writes and the VM exit, carry them over. So changing the flags before the leaf is
changing them after it.
-/

namespace Sys2Proof.Machine

theorem exec_enclsEaug (s : State) : exec .enclsEaug s = execEnclsEaug s := rfl

/-- A leaf whose checks pass with a plan answers that plan's writes. -/
theorem execEnclsEaug_of_ok (s : State) (p : EaugPlan) (h : eaugChecks s = .ok p) :
    execEnclsEaug s = .next (eaugCommit s p) := by
  unfold execEnclsEaug
  rw [h]

/-- No check projects the flags, so the two sides unfold to the same term. -/
theorem eaugChecks_withFlags (s : State) (f : Word) :
    eaugChecks { s with flags := f } = eaugChecks s := rfl

theorem eaugCommit_withFlags (s : State) (f : Word) (p : EaugPlan) :
    eaugCommit { s with flags := f } p = { eaugCommit s p with flags := f } := rfl

theorem State.deliverVmExit_withFlags (s : State) (f : Word) (gpa : Nat) (gla : LinAddr) :
    State.deliverVmExit { s with flags := f } gpa gla =
      { s.deliverVmExit gpa gla with flags := f } := rfl

/-- Of the three ways to stop, only a VM exit answers a state. -/
theorem Stop.outcome_withFlags (s : State) (f : Word) (x : Stop) :
    x.outcome { s with flags := f } = mapNext (fun t => { t with flags := f }) (x.outcome s) := by
  cases x with
  | fault _ => rfl
  | vmExit gpa gla => exact congrArg Host.Outcome.next (State.deliverVmExit_withFlags s f gpa gla)
  | refuse _ => rfl

/-- The checks choose the same way to end, and each way commutes with a change of the flags. -/
theorem execEnclsEaug_withFlags (s : State) (f : Word) :
    execEnclsEaug { s with flags := f } =
      mapNext (fun t => { t with flags := f }) (execEnclsEaug s) := by
  have hchecks := eaugChecks_withFlags s f
  cases h : eaugChecks s with
  | ok p =>
    rw [execEnclsEaug_of_ok s p h, execEnclsEaug_of_ok _ p (hchecks.trans h),
      eaugCommit_withFlags, mapNext]
  | error x =>
    rw [execEnclsEaug_of_error x h, execEnclsEaug_of_error x (hchecks.trans h),
      Stop.outcome_withFlags]

/-- Settles O43. -/
theorem flagsNeitherReadNorWritten : Obligations.FlagsNeitherReadNorWritten := by
  intro s f
  rw [exec_enclsEaug, exec_enclsEaug, execEnclsEaug_withFlags]

end Sys2Proof.Machine
end

section
/-!
PROOF. Five checks of the leaf that stop it (40_eaug.md R82, R85, R88, R89, R91). Each statement names
the point the leaf has reached; the check that stands there answers the stop, and a check that stops is
where the leaf stops. On the default path the test of R85 has nothing to say: the type is `PT_REG`, no
shadow-stack type, so the premises of success hold for either value of `CR4.CET`.
-/

namespace Sys2Proof.Machine

/-- The leaf's outcome is that of the check it stops in. -/
theorem exec_of_stops {s : State} (x : Stop) (h : EaugStops s x) :
    exec .enclsEaug s = x.outcome s :=
  execEnclsEaug_of_error x (eaugChecks_error_of x h)

/-- The leaf reads `CR4.CET` in the test of R85 only, so success carries over to any value of it that
passes this test. -/
theorem eaugSucceeds_withCet {s : State} {o : EaugOperands} (c : Bool) (h : EaugSucceeds s o)
    (hc : isShadowStack o.attrs.pt = true → c = true) :
    EaugSucceeds { s with cr4Cet := c } o := by
  obtain ⟨⟨⟨⟨⟨⟨⟨⟨hAttrs, _⟩, hSecsLock⟩, hDistinct⟩, hValid⟩, hInit⟩, hRange⟩, hEnds⟩, hToken⟩ := h
  exact ⟨⟨⟨⟨⟨⟨⟨⟨hAttrs, hc⟩, hSecsLock⟩, hDistinct⟩, hValid⟩, hInit⟩, hRange⟩, hEnds⟩, hToken⟩

/-- Settles O20: the check of R82 stops the leaf. -/
theorem validTargetRaisesPf : Obligations.ValidTargetRaisesPf := by
  intro s o h hvalid
  have hstop : checkTargetFree s o.laT o.pT = .error (raisePf .targetValid o.laT) :=
    (stopIf_error _ _ _).2 ⟨hvalid, rfl⟩
  refine exec_of_stops (raisePf .targetValid o.laT) (.inr (.inr (.inr ⟨o, ?_⟩)))
  iterate 8 right
  exact .inl ⟨h, hstop⟩

/-- Settles O23: a shadow-stack type is stopped by the check of R85, and the default type passes it
whatever `CR4.CET` is. -/
theorem shadowStackNeedsCet : Obligations.ShadowStackNeedsCet := by
  constructor
  · intro s o h htype hcet
    have hstop : checkCet s o.attrs = .error raiseGp :=
      (stopIf_error _ _ _).2 ⟨⟨(isShadowStack_iff _).2 htype, hcet⟩, rfl⟩
    refine exec_of_stops raiseGp (.inr (.inr (.inr ⟨o, ?_⟩)))
    iterate 10 right
    exact .inl ⟨h, hstop⟩
  · intro s o c h hdefault
    obtain ⟨_, hattrs, _⟩ := attributesSettled_of_succeeds h
    have hreg : o.attrs.pt = .reg := by rw [hattrs hdefault, defaultAttrs]
    have hpass : isShadowStack o.attrs.pt = true → c = true := by
      rw [hreg]
      exact fun hss => nomatch hss
    exact ⟨hreg, _, execEnclsEaug_of (eaugSucceeds_withCet c h hpass), eaugCommit_vmExited _ _⟩

/-- Settles O26: the check of R88 stops the leaf, for either of its two terms. -/
theorem invalidSecsRaisesPf : Obligations.InvalidSecsRaisesPf := by
  intro s o h hinvalid
  have hstop : checkSecsValid s o.laS o.pS = .error (raisePf .secsInvalid o.laS) :=
    (stopIf_error _ _ _).2 ⟨hinvalid, rfl⟩
  refine exec_of_stops (raisePf .secsInvalid o.laS) (.inr (.inr (.inr ⟨o, ?_⟩)))
  iterate 13 right
  exact .inl ⟨h, hstop⟩

/-- Settles O27: the check of R89 stops the leaf. -/
theorem uninitializedEnclaveRaisesGp : Obligations.UninitializedEnclaveRaisesGp := by
  intro s o h huninit
  have hstop : checkInitialized s o.pS = .error raiseGp := (stopIf_error _ _ _).2 ⟨huninit, rfl⟩
  refine exec_of_stops raiseGp (.inr (.inr (.inr ⟨o, ?_⟩)))
  iterate 14 right
  exact .inl ⟨h, hstop⟩

/-- Settles O29: the check of R91 stops the leaf. It compares sums of naturals, which agree with the
spec's integer difference also where that one is negative. -/
theorem shadowStackAtRangeEndRaisesGp : Obligations.ShadowStackAtRangeEndRaisesGp := by
  intro s o h htype hends
  have hend : atRangeEnd (o.pageinfo s).linaddr (s.secsAt o.pS) := by
    rcases hends with hfirst | hlast
    · exact .inl (by omega)
    · exact .inr (by omega)
  have hstop : checkShadowEnds (s.secsAt o.pS) (o.pageinfo s).linaddr o.attrs = .error raiseGp :=
    (stopIf_error _ _ _).2 ⟨⟨(isShadowStack_iff _).2 htype, hend⟩, rfl⟩
  refine exec_of_stops raiseGp (.inr (.inr (.inr ⟨o, ?_⟩)))
  iterate 16 right
  exact .inl ⟨h, hstop⟩

end Sys2Proof.Machine
end

section
/-!
SUPPORT. What the premises of success say of the new page, and what the leaf's writes leave there
and elsewhere (40_eaug.md R83 to R95). The target's entry was not valid, so a valid page is another
one; and where the translation keeps page offsets the bytes written are those of the target's
frame.
-/

namespace Sys2Proof.Machine

variable {s : State} {o : EaugOperands}

/-! ### The premises of success -/

theorem targetFree_of_succeeds (h : EaugSucceeds s o) : TargetFree s o :=
  (secinfoRead_of_succeeds h).1

theorem admitted_of_succeeds (h : EaugSucceeds s o) : Admitted s := by
  obtain ⟨⟨⟨⟨hadmitted, _⟩, _⟩, _⟩, _⟩ := targetResolved_of_succeeds h
  exact hadmitted

/-- The settled attributes are read, write and no execute, with one of three types (R83, R84). -/
theorem attrs_of_settled (h : AttributesSettled s o) :
    o.attrs.r = true ∧ o.attrs.w = true ∧ o.attrs.x = false ∧
      (o.attrs.pt = .reg ∨ o.attrs.pt = .ssFirst ∨ o.attrs.pt = .ssRest) := by
  obtain ⟨_, hdefault, hgiven⟩ := h
  by_cases hz : (o.pageinfo s).secinfo = 0#64
  · rw [hdefault hz]
    exact ⟨rfl, rfl, rfl, .inl rfl⟩
  · obtain ⟨⟨_, _, htype, _⟩, _, hpt, hr, hw, hx⟩ := hgiven hz
    rw [hpt, Option.some.injEq, Option.some.injEq] at htype
    exact ⟨hr, hw, hx, .inr htype⟩

/-! ### The EPCM after the writes -/

/-- A page that is valid before the leaf is not the target's. -/
theorem frameOf_ne_target_of_valid (h : EaugSucceeds s o) {p : Nat}
    (hv : (s.epcmAt p).valid = true) : frameOf p ≠ frameOf o.pT := by
  intro hp
  obtain ⟨_, hfree⟩ := targetFree_of_succeeds h
  rw [State.epcmAt, ← hp] at hfree
  exact Bool.noConfusion (hfree.symm.trans hv)

/-- The writes keep the entry of every page that was valid. -/
theorem epcmAt_eaugCommit_of_valid (hwf : Table.wf unlistedEpcm s.epcm = true)
    (h : EaugSucceeds s o) {p : Nat} (hv : (s.epcmAt p).valid = true) :
    (eaugCommit s (o.plan s)).epcmAt p = s.epcmAt p := by
  rw [epcmAt_eaugCommit_plan p hwf, if_neg (frameOf_ne_target_of_valid h hv)]

/-! ### Memory after the writes -/

/-- The writes leave zero in every byte of the target page but a due token's last 8 (R92, R93). -/
theorem byteAt_eaugCommit_target (hmem : s.mem.wf = true) {i : Nat} (hi : i < 4096)
    (hz : i < 0xFF8 ∨ ¬ TokenDue s o) :
    (eaugCommit s (o.plan s)).byteAt (o.pT + i) = 0#8 := by
  have htoken : ¬ (needsToken s.cfg o.attrs = true ∧ o.pT + 0xFF8 ≤ o.pT + i) := by
    rw [needsToken_iff]
    rintro ⟨hdue, hle⟩
    rcases hz with hz | hz
    · omega
    · exact hz hdue
  rw [byteAt_eaugCommit_plan _ hmem, if_pos (by omega), if_neg htoken]

/-- The writes leave every byte outside the target page as it was. -/
theorem byteAt_eaugCommit_outside (hmem : s.mem.wf = true) {a : Nat}
    (ha : a < o.pT ∨ o.pT + 4096 ≤ a) : (eaugCommit s (o.plan s)).byteAt a = s.byteAt a := by
  rw [byteAt_eaugCommit_plan _ hmem, if_neg (by omega)]

/-- The target page's bytes are those of its frame, where the translation keeps page offsets. -/
theorem frameOf_eq_target_iff (hc : s.cfg.keepsPageOffsets = true) (h : EaugSucceeds s o)
    (a : Nat) : frameOf a = frameOf o.pT ↔ o.pT ≤ a ∧ a < o.pT + 4096 := by
  have halign := target_aligned_of_succeeds hc h
  unfold frameOf
  omega

theorem byteAt_eaugCommit_of_frame_ne (hmem : s.mem.wf = true)
    (hc : s.cfg.keepsPageOffsets = true) (h : EaugSucceeds s o) {a : Nat}
    (ha : frameOf a ≠ frameOf o.pT) : (eaugCommit s (o.plan s)).byteAt a = s.byteAt a := by
  rw [ne_eq, frameOf_eq_target_iff hc h] at ha
  exact byteAt_eaugCommit_outside hmem (by omega)

theorem frameOf_pageByte (p i : Nat) (hi : i < 4096) : frameOf (pageByte p i) = frameOf p := by
  unfold pageByte frameOf
  omega

theorem pageByte_target (hc : s.cfg.keepsPageOffsets = true) (h : EaugSucceeds s o) {p : Nat}
    (hp : frameOf p = frameOf o.pT) (i : Nat) : pageByte p i = o.pT + i := by
  have halign := target_aligned_of_succeeds hc h
  rw [pageByte, hp]
  unfold frameOf
  omega

end Sys2Proof.Machine
end

section
/-!
PROOF. The three invariants every step keeps: the canonical form of memory and of the tables, that
every pending page is owned by an initialized enclave, and that it holds only zeros but for its
token (40_eaug.md R83 to R95). A step answers the leaf's writes or a delivered VM exit, and a VM
exit writes only the VMCS. The writes make one page pending and disturb no other entry that an
invariant reads, since neither a pending page nor its SECS can be the target.
-/

namespace Sys2Proof.Machine

variable {s t : State} {o : EaugOperands}

/-- A property that the leaf's writes and a delivered VM exit keep is kept by every step. -/
theorem step_keeps (P : State → Prop)
    (hwrite : ∀ o, EaugSucceeds s o → P (eaugCommit s (o.plan s)))
    (hexit : ∀ gpa gla, P (s.deliverVmExit gpa gla)) (h : step s = .next t) : P t := by
  rcases eq_of_step_next s t h with ⟨o, ho, rfl⟩ | ⟨gpa, gla, _, rfl⟩
  · exact hwrite o ho
  · exact hexit gpa gla

/-! ### The canonical form -/

theorem State.storageWf_iff (s : State) : s.storageWf = true ↔
    s.mem.wf = true ∧ s.code.wf = true ∧ Table.wf unlistedEpcm s.epcm = true ∧
      Table.wf unlistedSecs s.secs = true ∧ Table.wf unlistedLock s.locks = true := by
  simp only [State.storageWf, Bool.and_eq_true, and_assoc]

theorem storageWf_eaugCommit (p : EaugPlan) (h : s.storageWf = true) :
    (eaugCommit s p).storageWf = true := by
  obtain ⟨hmem, hcode, hepcm, hsecs, hlocks⟩ := s.storageWf_iff.1 h
  exact (State.storageWf_iff _).2
    ⟨eaugMemory_wf p hmem, hcode, setEpcm_wf _ _ _ hepcm, hsecs, hlocks⟩

/-- Settles O52. -/
theorem stepKeepsCanonicalForm : Obligations.StepKeepsCanonicalForm := fun _ _ hwf =>
  step_keeps (fun s => s.storageWf = true) (fun _ _ => storageWf_eaugCommit _ hwf) fun _ _ => hwf

/-! ### Pending pages are owned -/

/-- An entry whose SECS is a valid page stays one the leaf writes. -/
theorem pendingEntryOk_eaugCommit (hwf : Table.wf unlistedEpcm s.epcm = true)
    (h : EaugSucceeds s o) {e : EpcmEntry} (he : PendingEntryOk s e) :
    PendingEntryOk (eaugCommit s (o.plan s)) e := by
  obtain ⟨hr, hw, hx, hpt, hb, hm, hpr, hin, hvalid, htype, hrest⟩ := he
  have hsecs := epcmAt_eaugCommit_of_valid hwf h hvalid
  exact ⟨hr, hw, hx, hpt, hb, hm, hpr, hin, hsecs.symm ▸ hvalid, hsecs.symm ▸ htype, hrest⟩

/-- The entry of the new page is one the leaf writes, by the checks it passed. -/
theorem pendingEntryOk_newEpcmEntry (h : EaugSucceeds s o) :
    PendingEntryOk s (newEpcmEntry (o.plan s)) := by
  obtain ⟨hr, hw, hx, hpt⟩ := attrs_of_settled (attributesSettled_of_succeeds h)
  obtain ⟨⟨_, _, hin⟩, _⟩ := targetUnlocked_of_succeeds h
  obtain ⟨_, _, _, halign⟩ := secsAddressed_of_succeeds h
  obtain ⟨⟨⟨⟨_, hvalid, htype⟩, hinit⟩, hlo, hhi, _⟩, hends⟩ := h.1
  exact ⟨hr, hw, hx, hpt, rfl, rfl, rfl, hin, hvalid, htype, hinit, halign, hlo, hhi, hends⟩

/-- Settles O54. -/
theorem stepKeepsPendingPagesOwned : Obligations.StepKeepsPendingPagesOwned := by
  intro s t hwf howned
  refine step_keeps State.pendingPagesOwned (fun o ho p hv hp => ?_) fun _ _ => howned
  rw [epcmAt_eaugCommit_plan p hwf] at hv hp ⊢
  by_cases hf : frameOf p = frameOf o.pT
  · rw [if_pos hf]
    have hin : inEpc s.cfg p = true :=
      (inEpc_congr s.cfg p o.pT hf).trans (targetResolved_of_succeeds ho).2.2
    exact ⟨hin, pendingEntryOk_eaugCommit hwf ho (pendingEntryOk_newEpcmEntry ho)⟩
  · rw [if_neg hf] at hv hp ⊢
    obtain ⟨hin, he⟩ := howned p hv hp
    exact ⟨hin, pendingEntryOk_eaugCommit hwf ho he⟩

/-! ### Pending pages hold zeros -/

/-- Settles O55. -/
theorem stepKeepsPendingPagesZero : Obligations.StepKeepsPendingPagesZero := by
  intro s t hwf hc hzero
  obtain ⟨hmem, _, hepcm, _, _⟩ := s.storageWf_iff.1 hwf
  refine step_keeps State.pendingPagesZero (fun o ho p hv hp i hi hz => ?_) fun _ _ => hzero
  rw [epcmAt_eaugCommit_plan p hepcm] at hv hp hz
  by_cases hf : frameOf p = frameOf o.pT
  · rw [if_pos hf] at hz
    rw [pageByte_target hc ho hf]
    exact byteAt_eaugCommit_target hmem hi (hz.imp_right fun hne hdue => hne hdue.2)
  · rw [if_neg hf] at hv hp hz
    rw [byteAt_eaugCommit_of_frame_ne hmem hc ho (by rwa [frameOf_pageByte p i hi])]
    exact hzero p hv hp i hi hz

end Sys2Proof.Machine
end

section
/-!
SUPPORT. Why the leaf stops, said once in the words of the statements: `StopCause s x` has one
constructor per cause of 40_eaug.md section 7, with the checks before it passed. It is exactly when
`eaugChecks` answers `x`, so what a stop says is read off by cases on its cause, and that a cause
stops the leaf is its constructor.
-/

namespace Sys2Proof.Machine

variable {s : State} {o : EaugOperands}

/-- The causes of a stop, in the order of the checks. -/
inductive StopCause (s : State) : Stop → Prop
  | otherLeaf : s.eax ≠ 0x0D#32 → StopCause s (.refuse .otherLeaf)
  | featureAbsent : s.eax = 0x0D#32 → ¬ LeafAvailable s.cfg → StopCause s (.refuse .featureAbsent)
  | pcWrap : s.eax = 0x0D#32 → LeafAvailable s.cfg →
      2 ^ addressWidth s.cfg.mode ≤ s.pc.toNat + s.cfg.enclsLength →
      StopCause s (.refuse .pcWrap)
  | unprivileged : Admitted s → s.cpl ≠ 0#2 → StopCause s (.fault .gp0)
  | pageinfoAddress : Privileged s →
      (∀ la, lin s (effectiveAddress s.cfg.mode s.rbx) 32 = some la → la.toNat % 32 ≠ 0) →
      StopCause s (.fault .gp0)
  | targetAddress (o : EaugOperands) : PageinfoAddressed s o →
      (∀ la, lin s (effectiveAddress s.cfg.mode s.rcx) 4096 = some la → la.toNat % 4096 ≠ 0) →
      StopCause s (.fault .gp0)
  | targetTranslate (o : EaugOperands) : TargetAddressed s o →
      translate s.cfg o.laT .write = none →
      StopCause s (.fault (.pf o.laT (Config.pfErrorCode .targetTranslate)))
  | targetNotEpc (o : EaugOperands) : TargetAddressed s o →
      translate s.cfg o.laT .write = some o.pT → inEpc s.cfg o.pT = false →
      StopCause s (.fault (.pf o.laT (Config.pfErrorCode .targetNotEpc)))
  | pageinfoTranslate (o : EaugOperands) : TargetResolved s o →
      translate s.cfg o.laPi .read = none →
      StopCause s (.fault (.pf o.laPi (Config.pfErrorCode .pageinfoTranslate)))
  | pageinfoInEpc (o : EaugOperands) : TargetResolved s o →
      translate s.cfg o.laPi .read = some o.pPi → inEpc s.cfg o.pPi = true →
      StopCause s (.refuse .pageinfoInEpc)
  | widePointer (o : EaugOperands) : TargetResolved s o →
      translate s.cfg o.laPi .read = some o.pPi → inEpc s.cfg o.pPi = false →
      s.cfg.mode = .mode32 →
      (2 ^ 32 ≤ (o.pageinfo s).secs.toNat ∨ 2 ^ 32 ≤ (o.pageinfo s).secinfo.toNat) →
      StopCause s (.refuse .widePointer)
  | secinfoAddress (o : EaugOperands) : PageinfoRead s o → (o.pageinfo s).secinfo ≠ 0#64 →
      (∀ la, lin s (o.pageinfo s).secinfo 64 = some la → la.toNat % 64 ≠ 0) →
      StopCause s (.fault .gp0)
  | secsAddress (o : EaugOperands) : SecinfoAddressed s o →
      (∀ la, lin s (o.pageinfo s).secs 4096 = some la →
        la.toNat % 4096 ≠ 0 ∨ (o.pageinfo s).linaddr.toNat % 4096 ≠ 0) →
      StopCause s (.fault .gp0)
  | sourcePage (o : EaugOperands) : SecsAddressed s o → (o.pageinfo s).srcpge ≠ 0#64 →
      StopCause s (.fault .gp0)
  | secsTranslate (o : EaugOperands) : SourceAbsent s o →
      translate s.cfg o.laS .readwrite = none →
      StopCause s (.fault (.pf o.laS (Config.pfErrorCode .secsTranslate)))
  | secsNotEpc (o : EaugOperands) : SourceAbsent s o →
      translate s.cfg o.laS .readwrite = some o.pS → inEpc s.cfg o.pS = false →
      StopCause s (.fault (.pf o.laS (Config.pfErrorCode .secsNotEpc)))
  | targetInUseExit (o : EaugOperands) : SecsResolved s o → s.lockAt o.pT ≠ .free →
      s.vmxNonRoot = true ∧ s.epcVirtExt = true → StopCause s (.vmExit o.pT o.laT)
  | targetInUse (o : EaugOperands) : SecsResolved s o → s.lockAt o.pT ≠ .free →
      ¬ (s.vmxNonRoot = true ∧ s.epcVirtExt = true) → StopCause s (.fault .gp0)
  | targetValid (o : EaugOperands) : TargetUnlocked s o → (s.epcmAt o.pT).valid = true →
      StopCause s (.fault (.pf o.laT (Config.pfErrorCode .targetValid)))
  | secinfoTranslate (o : EaugOperands) : TargetFree s o → (o.pageinfo s).secinfo ≠ 0#64 →
      translate s.cfg o.laSi .read = none →
      StopCause s (.fault (.pf o.laSi (Config.pfErrorCode .secinfoTranslate)))
  | secinfoInEpc (o : EaugOperands) : TargetFree s o → (o.pageinfo s).secinfo ≠ 0#64 →
      translate s.cfg o.laSi .read = some o.pSi → inEpc s.cfg o.pSi = true →
      StopCause s (.refuse .secinfoInEpc)
  | secinfoRejected (o : EaugOperands) : SecinfoRead s o → (o.pageinfo s).secinfo ≠ 0#64 →
      ¬ SecinfoAccepted s (secinfoAt s o.pSi) → StopCause s (.fault .gp0)
  | secinfoStateBits (o : EaugOperands) : SecinfoRead s o → (o.pageinfo s).secinfo ≠ 0#64 →
      SecinfoAccepted s (secinfoAt s o.pSi) → (secinfoAt s o.pSi).stateNonzero = true →
      StopCause s (.refuse .secinfoStateBits)
  | cetClear (o : EaugOperands) : AttributesSettled s o → isShadowStack o.attrs.pt = true →
      s.cr4Cet = false → StopCause s (.fault .gp0)
  | secsLocked (o : EaugOperands) : CetEnabled s o → s.lockAt o.pS = .exclusive →
      StopCause s (.fault .gp0)
  | targetIsSecs (o : EaugOperands) : SecsUnlocked s o → o.pS = o.pT →
      StopCause s (.refuse .targetIsSecs)
  | secsInvalid (o : EaugOperands) : SecsDistinct s o →
      ((s.epcmAt o.pS).valid = false ∨ (s.epcmAt o.pS).pt ≠ .secs) →
      StopCause s (.fault (.pf o.laS (Config.pfErrorCode .secsInvalid)))
  | uninitialized (o : EaugOperands) : SecsValid s o → (s.secsAt o.pS).initialized = false →
      StopCause s (.fault .gp0)
  | linaddrBelow (o : EaugOperands) : EnclaveInitialized s o →
      (o.pageinfo s).linaddr.toNat < (s.secsAt o.pS).baseaddr.toNat →
      StopCause s (.fault .gp0)
  | rangeOverflow (o : EaugOperands) : EnclaveInitialized s o →
      (s.secsAt o.pS).baseaddr.toNat ≤ (o.pageinfo s).linaddr.toNat →
      2 ^ 64 ≤ (s.secsAt o.pS).baseaddr.toNat + (s.secsAt o.pS).size.toNat →
      StopCause s (.refuse .rangeOverflow)
  | linaddrPast (o : EaugOperands) : EnclaveInitialized s o →
      (s.secsAt o.pS).baseaddr.toNat + (s.secsAt o.pS).size.toNat < 2 ^ 64 →
      (s.secsAt o.pS).baseaddr.toNat + (s.secsAt o.pS).size.toNat ≤
        (o.pageinfo s).linaddr.toNat →
      StopCause s (.fault .gp0)
  | atRangeEnd (o : EaugOperands) : LinaddrInRange s o → isShadowStack o.attrs.pt = true →
      atRangeEnd (o.pageinfo s).linaddr (s.secsAt o.pS) → StopCause s (.fault .gp0)
  | tokenOverflow (o : EaugOperands) : NotAtRangeEnd s o → TokenDue s o →
      2 ^ 64 ≤ (o.pageinfo s).linaddr.toNat + 0x1000 → StopCause s (.refuse .tokenOverflow)

/-! ### A stop has a cause -/

/-- An operand that has no value, or one that fails, is one of which every value fails. -/
theorem forall_some_iff {α : Type} (v : Option α) (bad : α → Prop) :
    (v = none ∨ ∃ a, v = some a ∧ bad a) ↔ ∀ a, v = some a → bad a := by
  cases v <;> simp

/-- A check that stops has a cause: each check's own lemma says what it can stop for. -/
theorem stopCause_of_stops (x : Stop) (h : EaugStops s x) : StopCause s x := by
  rcases h with h | ⟨hb, h⟩ | ⟨hb, h⟩ | ⟨o, ⟨hb, h⟩ | ⟨hb, h⟩ | ⟨hb, h⟩ | ⟨hb, h⟩ | ⟨hb, h⟩ |
    ⟨hb, h⟩ | ⟨hb, h⟩ | ⟨hb, h⟩ | ⟨hb, h⟩ | ⟨hb, h⟩ | ⟨hb, h⟩ | ⟨hb, h⟩ | ⟨hb, h⟩ | ⟨hb, h⟩ |
    ⟨hb, h⟩ | ⟨hb, h⟩ | ⟨hb, h⟩ | ⟨hb, h⟩⟩
  · rcases (checkAdmission_error x).1 h with ⟨h1, rfl⟩ | ⟨h1, h2, rfl⟩ | ⟨h1, h2, h3, rfl⟩
    · exact .otherLeaf h1
    · exact .featureAbsent h1 h2
    · exact .pcWrap h1 h2 h3
  · obtain ⟨hcpl, rfl⟩ := (stopIf_error _ _ _).1 h
    exact .unprivileged hb hcpl
  · obtain ⟨rfl, hla⟩ := (alignedOperand_error _ _ _ _ _).1 h
    exact .pageinfoAddress hb ((forall_some_iff _ _).1 hla)
  · obtain ⟨rfl, hla⟩ := (alignedOperand_error _ _ _ _ _).1 h
    exact .targetAddress o hb ((forall_some_iff _ _).1 hla)
  · rcases (resolveInEpc_error _ _ _ _ _ _).1 h with ⟨ht, rfl⟩ | ⟨p, ht, hin, rfl⟩
    · exact .targetTranslate o hb ht
    · exact .targetNotEpc { o with pT := p } hb ht hin
  · rcases (readPageinfo_error _ _).1 h with ⟨ht, rfl⟩ | ⟨p, ht, ⟨hin, rfl⟩ | ⟨hin, hm, hw, rfl⟩⟩
    · exact .pageinfoTranslate o hb ht
    · exact .pageinfoInEpc { o with pPi := p } hb ht hin
    · exact .widePointer { o with pPi := p } hb ht hin hm hw
  · obtain ⟨hz, rfl, hla⟩ := (secinfoOperand_error _ _).1 h
    exact .secinfoAddress o hb hz ((forall_some_iff _ _).1 hla)
  · obtain ⟨rfl, hla⟩ := (secsOperand_error _ _).1 h
    exact .secsAddress o hb ((forall_some_iff _ _).1 hla)
  · obtain ⟨hsrc, rfl⟩ := (stopIf_error _ _ _).1 h
    exact .sourcePage o hb hsrc
  · rcases (resolveInEpc_error _ _ _ _ _ _).1 h with ⟨ht, rfl⟩ | ⟨p, ht, hin, rfl⟩
    · exact .secsTranslate o hb ht
    · exact .secsNotEpc { o with pS := p } hb ht hin
  · obtain ⟨hlock, rfl⟩ := (stopIf_error _ _ _).1 h
    split
    · exact .targetInUseExit o hb hlock ‹_›
    · exact .targetInUse o hb hlock ‹_›
  · obtain ⟨hvalid, rfl⟩ := (stopIf_error _ _ _).1 h
    exact .targetValid o hb hvalid
  · obtain ⟨hz, ⟨ht, rfl⟩ | ⟨p, ht, ⟨hin, rfl⟩ | ⟨hin, hsi⟩⟩⟩ := (securityAttributes_error x).1 h
    · exact .secinfoTranslate o hb hz ht
    · exact .secinfoInEpc { o with pSi := p } hb hz ht hin
    · rcases (checkSecinfo_error _ x).1 hsi with ⟨hrej, rfl⟩ | ⟨hacc, hbits, rfl⟩
      · exact .secinfoRejected { o with pSi := p } ⟨hb, fun _ => ⟨ht, hin⟩⟩ hz hrej
      · exact .secinfoStateBits { o with pSi := p } ⟨hb, fun _ => ⟨ht, hin⟩⟩ hz hacc hbits
  · obtain ⟨⟨hss, hcet⟩, rfl⟩ := (stopIf_error _ _ _).1 h
    exact .cetClear o hb hss hcet
  · obtain ⟨hlock, rfl⟩ := (stopIf_error _ _ _).1 h
    exact .secsLocked o hb hlock
  · obtain ⟨heq, rfl⟩ := (stopIf_error _ _ _).1 h
    exact .targetIsSecs o hb heq
  · obtain ⟨hinv, rfl⟩ := (stopIf_error _ _ _).1 h
    exact .secsInvalid o hb hinv
  · obtain ⟨hinit, rfl⟩ := (stopIf_error _ _ _).1 h
    exact .uninitialized o hb hinit
  · rcases (checkRange_error _ _ x).1 h with ⟨hlo, rfl⟩ | ⟨hlo, hov, rfl⟩ | ⟨hhi, hfit, _, rfl⟩
    · exact .linaddrBelow o hb hlo
    · exact .rangeOverflow o hb hlo hov
    · exact .linaddrPast o hb hfit hhi
  · obtain ⟨⟨hss, hend⟩, rfl⟩ := (stopIf_error _ _ _).1 h
    exact .atRangeEnd o hb hss hend
  · obtain ⟨⟨hdue, hov⟩, rfl⟩ := (stopIf_error _ _ _).1 h
    exact .tokenOverflow o hb ((needsToken_iff _ _).1 hdue) hov

/-! ### A cause stops the leaf -/

/-- A cause stops its check: each check's own lemma says so, and `EaugStops` lists it in its place.
-/
theorem stops_of_cause (x : Stop) (h : StopCause s x) : EaugStops s x := by
  cases h with
  | otherLeaf h1 => exact .inl ((checkAdmission_error _).2 (.inl ⟨h1, rfl⟩))
  | featureAbsent h1 h2 => exact .inl ((checkAdmission_error _).2 (.inr (.inl ⟨h1, h2, rfl⟩)))
  | pcWrap h1 h2 h3 =>
    exact .inl ((checkAdmission_error _).2 (.inr (.inr ⟨h1, h2, h3, rfl⟩)))
  | unprivileged hb h => exact .inr (.inl ⟨hb, (stopIf_error _ _ _).2 ⟨h, rfl⟩⟩)
  | pageinfoAddress hb h =>
    exact .inr (.inr (.inl ⟨hb, (alignedOperand_error _ _ _ _ _).2
      ⟨rfl, (forall_some_iff _ _).2 h⟩⟩))
  | targetAddress o hb h =>
    refine .inr (.inr (.inr ⟨o, ?_⟩))
    exact .inl ⟨hb, (alignedOperand_error _ _ _ _ _).2 ⟨rfl, (forall_some_iff _ _).2 h⟩⟩
  | targetTranslate o hb h =>
    refine .inr (.inr (.inr ⟨o, ?_⟩))
    iterate 1 right
    exact .inl ⟨hb, (resolveInEpc_error _ _ _ _ _ _).2 (.inl ⟨h, rfl⟩)⟩
  | targetNotEpc o hb ht hin =>
    refine .inr (.inr (.inr ⟨o, ?_⟩))
    iterate 1 right
    exact .inl ⟨hb, (resolveInEpc_error _ _ _ _ _ _).2 (.inr ⟨_, ht, hin, rfl⟩)⟩
  | pageinfoTranslate o hb h =>
    refine .inr (.inr (.inr ⟨o, ?_⟩))
    iterate 2 right
    exact .inl ⟨hb, (readPageinfo_error _ _).2 (.inl ⟨h, rfl⟩)⟩
  | pageinfoInEpc o hb ht hin =>
    refine .inr (.inr (.inr ⟨o, ?_⟩))
    iterate 2 right
    exact .inl ⟨hb, (readPageinfo_error _ _).2 (.inr ⟨_, ht, .inl ⟨hin, rfl⟩⟩)⟩
  | widePointer o hb ht hin hm hw =>
    refine .inr (.inr (.inr ⟨o, ?_⟩))
    iterate 2 right
    exact .inl ⟨hb, (readPageinfo_error _ _).2 (.inr ⟨_, ht, .inr ⟨hin, hm, hw, rfl⟩⟩)⟩
  | secinfoAddress o hb hz h =>
    refine .inr (.inr (.inr ⟨o, ?_⟩))
    iterate 3 right
    exact .inl ⟨hb, (secinfoOperand_error _ _).2 ⟨hz, rfl, (forall_some_iff _ _).2 h⟩⟩
  | secsAddress o hb h =>
    refine .inr (.inr (.inr ⟨o, ?_⟩))
    iterate 4 right
    exact .inl ⟨hb, (secsOperand_error _ _).2 ⟨rfl, (forall_some_iff _ _).2 h⟩⟩
  | sourcePage o hb h =>
    refine .inr (.inr (.inr ⟨o, ?_⟩))
    iterate 5 right
    exact .inl ⟨hb, (stopIf_error _ _ _).2 ⟨h, rfl⟩⟩
  | secsTranslate o hb h =>
    refine .inr (.inr (.inr ⟨o, ?_⟩))
    iterate 6 right
    exact .inl ⟨hb, (resolveInEpc_error _ _ _ _ _ _).2 (.inl ⟨h, rfl⟩)⟩
  | secsNotEpc o hb ht hin =>
    refine .inr (.inr (.inr ⟨o, ?_⟩))
    iterate 6 right
    exact .inl ⟨hb, (resolveInEpc_error _ _ _ _ _ _).2 (.inr ⟨_, ht, hin, rfl⟩)⟩
  | targetInUseExit o hb hlock hv =>
    refine .inr (.inr (.inr ⟨o, ?_⟩))
    iterate 7 right
    exact .inl ⟨hb, (stopIf_error _ _ _).2 ⟨hlock, if_pos hv⟩⟩
  | targetInUse o hb hlock hv =>
    refine .inr (.inr (.inr ⟨o, ?_⟩))
    iterate 7 right
    exact .inl ⟨hb, (stopIf_error _ _ _).2 ⟨hlock, if_neg hv⟩⟩
  | targetValid o hb h =>
    refine .inr (.inr (.inr ⟨o, ?_⟩))
    iterate 8 right
    exact .inl ⟨hb, (stopIf_error _ _ _).2 ⟨h, rfl⟩⟩
  | secinfoTranslate o hb hz h =>
    refine .inr (.inr (.inr ⟨o, ?_⟩))
    iterate 9 right
    exact .inl ⟨hb, (securityAttributes_error _).2 ⟨hz, .inl ⟨h, rfl⟩⟩⟩
  | secinfoInEpc o hb hz ht hin =>
    refine .inr (.inr (.inr ⟨o, ?_⟩))
    iterate 9 right
    exact .inl ⟨hb, (securityAttributes_error _).2 ⟨hz, .inr ⟨_, ht, .inl ⟨hin, rfl⟩⟩⟩⟩
  | secinfoRejected o hb hz hrej =>
    refine .inr (.inr (.inr ⟨o, ?_⟩))
    iterate 9 right
    exact .inl ⟨hb.1, (securityAttributes_error _).2 ⟨hz, .inr ⟨_, (hb.2 hz).1,
        .inr ⟨(hb.2 hz).2, (checkSecinfo_error _ _).2 (.inl ⟨hrej, rfl⟩)⟩⟩⟩⟩
  | secinfoStateBits o hb hz hacc hbits =>
    refine .inr (.inr (.inr ⟨o, ?_⟩))
    iterate 9 right
    exact .inl ⟨hb.1, (securityAttributes_error _).2 ⟨hz, .inr ⟨_, (hb.2 hz).1,
        .inr ⟨(hb.2 hz).2, (checkSecinfo_error _ _).2 (.inr ⟨hacc, hbits, rfl⟩)⟩⟩⟩⟩
  | cetClear o hb hss hcet =>
    refine .inr (.inr (.inr ⟨o, ?_⟩))
    iterate 10 right
    exact .inl ⟨hb, (stopIf_error _ _ _).2 ⟨⟨hss, hcet⟩, rfl⟩⟩
  | secsLocked o hb h =>
    refine .inr (.inr (.inr ⟨o, ?_⟩))
    iterate 11 right
    exact .inl ⟨hb, (stopIf_error _ _ _).2 ⟨h, rfl⟩⟩
  | targetIsSecs o hb h =>
    refine .inr (.inr (.inr ⟨o, ?_⟩))
    iterate 12 right
    exact .inl ⟨hb, (stopIf_error _ _ _).2 ⟨h, rfl⟩⟩
  | secsInvalid o hb h =>
    refine .inr (.inr (.inr ⟨o, ?_⟩))
    iterate 13 right
    exact .inl ⟨hb, (stopIf_error _ _ _).2 ⟨h, rfl⟩⟩
  | uninitialized o hb h =>
    refine .inr (.inr (.inr ⟨o, ?_⟩))
    iterate 14 right
    exact .inl ⟨hb, (stopIf_error _ _ _).2 ⟨h, rfl⟩⟩
  | linaddrBelow o hb h =>
    refine .inr (.inr (.inr ⟨o, ?_⟩))
    iterate 15 right
    exact .inl ⟨hb, (checkRange_error _ _ _).2 (.inl ⟨h, rfl⟩)⟩
  | rangeOverflow o hb hlo hov =>
    refine .inr (.inr (.inr ⟨o, ?_⟩))
    iterate 15 right
    exact .inl ⟨hb, (checkRange_error _ _ _).2 (.inr (.inl ⟨hlo, hov, rfl⟩))⟩
  | linaddrPast o hb hfit hhi =>
    refine .inr (.inr (.inr ⟨o, ?_⟩))
    iterate 15 right
    exact .inl ⟨hb, (checkRange_error _ _ _).2
        (.inr (.inr ⟨hhi, hfit, (Nat.le_add_right _ _).trans hhi, rfl⟩))⟩
  | atRangeEnd o hb hss hend =>
    refine .inr (.inr (.inr ⟨o, ?_⟩))
    iterate 16 right
    exact .inl ⟨hb, (stopIf_error _ _ _).2 ⟨⟨hss, hend⟩, rfl⟩⟩
  | tokenOverflow o hb hdue hov =>
    refine .inr (.inr (.inr ⟨o, ?_⟩))
    iterate 17 right
    exact ⟨hb, (stopIf_error _ _ _).2 ⟨⟨(needsToken_iff _ _).2 hdue, hov⟩, rfl⟩⟩

/-- The checks answer a stop exactly for a cause of it. -/
theorem eaugChecks_error_iff (x : Stop) : eaugChecks s = .error x ↔ StopCause s x :=
  ⟨fun h => stopCause_of_stops x (eaugStops_of_error x h),
    fun h => eaugChecks_error_of x (stops_of_cause x h)⟩

theorem exec_of_cause {x : Stop} (h : StopCause s x) : exec .enclsEaug s = x.outcome s :=
  exec_of_stops x (stops_of_cause x h)

theorem exec_eq_fault_iff (f : Fault) :
    exec .enclsEaug s = .fault f ↔ StopCause s (.fault f) :=
  (execEnclsEaug_eq_fault f).trans (eaugChecks_error_iff _)

theorem exec_eq_refused_iff (r : Refusal) :
    exec .enclsEaug s = .refused r ↔ StopCause s (.refuse r) :=
  (execEnclsEaug_eq_refused r).trans (eaugChecks_error_iff _)

/-- What one execution of the leaf can answer: the writes, or a VM exit for a target in use under
virtualization (R81). -/
theorem exec_eq_next_cases {t : State} (h : exec .enclsEaug s = .next t) :
    (∃ o, EaugSucceeds s o ∧ t = eaugCommit s (o.plan s)) ∨
      ∃ o, SecsResolved s o ∧ s.lockAt o.pT ≠ .free ∧
        (s.vmxNonRoot = true ∧ s.epcVirtExt = true) ∧ t = s.deliverVmExit o.pT o.laT := by
  rcases (execEnclsEaug_eq_next t).1 h with hwrite | ⟨gpa, gla, hexit, rfl⟩
  · exact .inl hwrite
  · cases (eaugChecks_error_iff _).1 hexit with
    | targetInUseExit o hb hlock hv => exact .inr ⟨o, hb, hlock, hv, rfl⟩

end Sys2Proof.Machine
end

section
/-!
PROOF. What each outcome of the leaf says (60_exceptions.md sections 1 to 3, 40_eaug.md section 7):
a fault, a refusal or a VM exit has one of the causes of `StopCause`, and those with that outcome
are the statement's list.
-/

namespace Sys2Proof.Machine

/-- Settles O39: of the next states only a VM exit has the mark, and it has one cause. -/
theorem vmExitOnlyOnConflict : Obligations.VmExitOnlyOnConflict := by
  intro s t hs h ht
  rcases exec_eq_next_cases h with ⟨o, _, rfl⟩ | ⟨o, hb, hlock, ⟨hvmx, hext⟩, rfl⟩
  · exact Bool.noConfusion (ht.symm.trans hs)
  · exact ⟨⟨rfl, rfl, rfl, rfl, rfl, rfl, rfl, rfl, rfl, rfl, rfl, rfl, rfl, rfl⟩, rfl, rfl, rfl,
      hvmx, hext, o, hb, hlock, rfl, rfl⟩

/-- Settles O40. -/
theorem gpHasListedCause : Obligations.GpHasListedCause := by
  intro s hexec
  rw [exec_eq_fault_iff] at hexec
  cases hexec with
  | unprivileged hb h => exact .inl ⟨hb, h⟩
  | pageinfoAddress hb h => exact .inr (.inl ⟨hb, h⟩)
  | targetAddress o hb h => exact .inr (.inr ⟨o, .inl ⟨hb, h⟩⟩)
  | secinfoAddress o hb hz h => exact .inr (.inr ⟨o, .inr (.inl ⟨hb, hz, h⟩)⟩)
  | secsAddress o hb h => exact .inr (.inr ⟨o, .inr (.inr (.inl ⟨hb, h⟩))⟩)
  | sourcePage o hb h => exact .inr (.inr ⟨o, .inr (.inr (.inr (.inl ⟨hb, h⟩)))⟩)
  | targetInUse o hb hlock hv =>
    refine .inr (.inr ⟨o, ?_⟩)
    iterate 4 right
    exact .inl ⟨hb, hlock, hv⟩
  | secinfoRejected o hb hz h =>
    refine .inr (.inr ⟨o, ?_⟩)
    iterate 5 right
    exact .inl ⟨hb, hz, h⟩
  | cetClear o hb hss h =>
    refine .inr (.inr ⟨o, ?_⟩)
    iterate 6 right
    exact .inl ⟨hb, hss, h⟩
  | secsLocked o hb h =>
    refine .inr (.inr ⟨o, ?_⟩)
    iterate 7 right
    exact .inl ⟨hb, h⟩
  | uninitialized o hb h =>
    refine .inr (.inr ⟨o, ?_⟩)
    iterate 8 right
    exact .inl ⟨hb, h⟩
  | linaddrBelow o hb h =>
    refine .inr (.inr ⟨o, ?_⟩)
    iterate 9 right
    exact .inl ⟨hb, .inl h⟩
  | linaddrPast o hb _ h =>
    refine .inr (.inr ⟨o, ?_⟩)
    iterate 9 right
    exact .inl ⟨hb, .inr h⟩
  | atRangeEnd o hb hss h =>
    refine .inr (.inr ⟨o, ?_⟩)
    iterate 10 right
    exact ⟨hb, hss, h⟩

/-- Settles O41. -/
theorem pfHasListedSite : Obligations.PfHasListedSite := by
  intro s la code hexec
  rw [exec_eq_fault_iff] at hexec
  cases hexec with
  | targetTranslate o hb h => exact ⟨o, .inl ⟨hb, h, rfl, rfl⟩⟩
  | targetNotEpc o hb ht h => exact ⟨o, .inr (.inl ⟨hb, ht, h, rfl, rfl⟩)⟩
  | pageinfoTranslate o hb h => exact ⟨o, .inr (.inr (.inl ⟨hb, h, rfl, rfl⟩))⟩
  | secsTranslate o hb h => exact ⟨o, .inr (.inr (.inr (.inl ⟨hb, h, rfl, rfl⟩)))⟩
  | secsNotEpc o hb ht h => exact ⟨o, .inr (.inr (.inr (.inr (.inl ⟨hb, ht, h, rfl, rfl⟩))))⟩
  | targetValid o hb h =>
    exact ⟨o, .inr (.inr (.inr (.inr (.inr (.inl ⟨hb, h, rfl, rfl⟩)))))⟩
  | secinfoTranslate o hb hz h =>
    exact ⟨o, .inr (.inr (.inr (.inr (.inr (.inr (.inl ⟨hb, hz, h, rfl, rfl⟩))))))⟩
  | secsInvalid o hb h =>
    exact ⟨o, .inr (.inr (.inr (.inr (.inr (.inr (.inr ⟨hb, h, rfl, rfl⟩))))))⟩

/-- Settles O42. -/
theorem refusalHasListedReason : Obligations.RefusalHasListedReason := by
  intro s r hexec
  rw [exec_eq_refused_iff] at hexec
  cases hexec with
  | otherLeaf h => exact .inl ⟨rfl, h⟩
  | featureAbsent h1 h2 => exact .inr (.inl ⟨rfl, h1, h2⟩)
  | pcWrap h1 h2 h3 => exact .inr (.inr (.inl ⟨rfl, h1, h2, h3⟩))
  | pageinfoInEpc o hb ht h => exact .inr (.inr (.inr ⟨o, .inl ⟨rfl, hb, ht, h⟩⟩))
  | widePointer o hb ht hin hm h =>
    exact .inr (.inr (.inr ⟨o, .inr (.inl ⟨rfl, hb, ht, hin, hm, h⟩)⟩))
  | secinfoInEpc o hb hz ht h =>
    exact .inr (.inr (.inr ⟨o, .inr (.inr (.inl ⟨rfl, hb, hz, ht, h⟩))⟩))
  | secinfoStateBits o hb hz hacc h =>
    exact .inr (.inr (.inr ⟨o, .inr (.inr (.inr (.inl ⟨rfl, hb, hz, hacc, h⟩)))⟩))
  | targetIsSecs o hb h =>
    exact .inr (.inr (.inr ⟨o, .inr (.inr (.inr (.inr (.inl ⟨rfl, hb, h⟩))))⟩))
  | rangeOverflow o hb hlo h =>
    exact .inr (.inr (.inr ⟨o, .inr (.inr (.inr (.inr (.inr (.inl ⟨rfl, hb, hlo, h⟩)))))⟩))
  | tokenOverflow o hb hdue h =>
    exact .inr (.inr (.inr ⟨o, .inr (.inr (.inr (.inr (.inr (.inr ⟨rfl, hb, hdue, h⟩)))))⟩))

end Sys2Proof.Machine
end

section
/-!
PROOF. Every check of the leaf that stops it (40_eaug.md R71 to R91), besides those settled above:
each statement's premises are the premises of one cause of `StopCause`.
-/

namespace Sys2Proof.Machine

/-- Settles O9. -/
theorem admissionRefusals : Obligations.AdmissionRefusals := by
  refine ⟨fun s hleaf => exec_of_cause (.otherLeaf hleaf), fun s hleaf habsent => ?_,
    fun s hleaf havail hpc => exec_of_cause (.pcWrap hleaf havail hpc)⟩
  have hnot : ¬ LeafAvailable s.cfg := by
    rintro ⟨h1, h2, h3, h4⟩
    rw [h1, h2, h3, h4] at habsent
    exact absurd habsent (by decide)
  exact exec_of_cause (.featureAbsent hleaf hnot)

/-- Settles O10. -/
theorem unprivilegedRaisesGp : Obligations.UnprivilegedRaisesGp := fun _ hb hcpl =>
  exec_of_cause (.unprivileged hb hcpl)

/-- An operand that is no address, or whose address fails, has no address that passes: the two
halves of a statement about an operand's address are its one cause. -/
theorem gp_of_operand {s : State} {v : Option LinAddr} {bad : LinAddr → Prop}
    (hcause : (∀ la, v = some la → bad la) → StopCause s (.fault .gp0)) :
    (v = none → exec .enclsEaug s = .fault .gp0) ∧
      ∀ la, v = some la → bad la → exec .enclsEaug s = .fault .gp0 :=
  ⟨fun hnone => exec_of_cause (hcause ((forall_some_iff v bad).1 (.inl hnone))),
    fun la hsome hbad =>
      exec_of_cause (hcause ((forall_some_iff v bad).1 (.inr ⟨la, hsome, hbad⟩)))⟩

/-- Settles O11. -/
theorem pageinfoAddressRaisesGp : Obligations.PageinfoAddressRaisesGp := fun _ hb =>
  gp_of_operand (.pageinfoAddress hb)

/-- Settles O12. -/
theorem targetAddressRaisesGp : Obligations.TargetAddressRaisesGp := fun _ o hb =>
  gp_of_operand (.targetAddress o hb)

/-- Settles O13. -/
theorem targetOutsideEpcRaisesPf : Obligations.TargetOutsideEpcRaisesPf := fun _ o hb =>
  ⟨fun ht => exec_of_cause (.targetTranslate o hb ht),
    fun p ht hin => exec_of_cause (.targetNotEpc { o with pT := p } hb ht hin)⟩

/-- Settles O14. -/
theorem pageinfoReadStops : Obligations.PageinfoReadStops := fun _ o hb =>
  ⟨fun ht => exec_of_cause (.pageinfoTranslate o hb ht),
    fun p ht hin => exec_of_cause (.pageinfoInEpc { o with pPi := p } hb ht hin),
    fun p ht hin hm hw => exec_of_cause (.widePointer { o with pPi := p } hb ht hin hm hw)⟩

/-- Settles O15. -/
theorem secinfoAddressRaisesGp : Obligations.SecinfoAddressRaisesGp := fun _ o hb hz =>
  gp_of_operand (.secinfoAddress o hb hz)

/-- Settles O16. -/
theorem secsOrLinaddrMisalignedRaisesGp : Obligations.SecsOrLinaddrMisalignedRaisesGp :=
  fun _ o hb => gp_of_operand (.secsAddress o hb)

/-- Settles O17. -/
theorem sourcePageRaisesGp : Obligations.SourcePageRaisesGp := fun _ o hb hsrc =>
  exec_of_cause (.sourcePage o hb hsrc)

/-- Settles O18. -/
theorem secsOutsideEpcRaisesPf : Obligations.SecsOutsideEpcRaisesPf := fun _ o hb =>
  ⟨fun ht => exec_of_cause (.secsTranslate o hb ht),
    fun p ht hin => exec_of_cause (.secsNotEpc { o with pS := p } hb ht hin)⟩

/-- Settles O19. -/
theorem targetInUseExitsOrRaisesGp : Obligations.TargetInUseExitsOrRaisesGp := by
  refine fun s o hb hlock => ⟨fun hv => exec_of_cause (.targetInUseExit o hb hlock hv),
    fun hv => exec_of_cause (.targetInUse o hb hlock ?_)⟩
  rintro ⟨hvmx, hext⟩
  rw [hvmx, hext] at hv
  exact absurd hv (by decide)

/-- Settles O21. -/
theorem secinfoReadStops : Obligations.SecinfoReadStops := fun _ o hb hz =>
  ⟨fun ht => exec_of_cause (.secinfoTranslate o hb hz ht),
    fun p ht hin => exec_of_cause (.secinfoInEpc { o with pSi := p } hb hz ht hin)⟩

/-- A SECINFO is not accepted where one of the six terms of R84 holds. -/
theorem not_secinfoAccepted_iff (s : State) (si : Secinfo) : ¬ SecinfoAccepted s si ↔
    si.reservedNonzero = true ∨ s.cfg.cpuid.leaf12Eax6 = false ∨
      (si.pt ≠ some .ssFirst ∧ si.pt ≠ some .ssRest) ∨
      si.r = false ∨ si.w = false ∨ si.x = true := by
  simp only [SecinfoAccepted, not_and_or, not_or, ne_eq, Bool.not_eq_true, Bool.not_eq_false]

/-- Settles O22. -/
theorem secinfoRejected : Obligations.SecinfoRejected := fun s o hb hz =>
  ⟨fun hterm => exec_of_cause (.secinfoRejected o hb hz ((not_secinfoAccepted_iff s _).2 hterm)),
    fun hacc hbits => exec_of_cause (.secinfoStateBits o hb hz hacc hbits)⟩

/-- Settles O24. -/
theorem lockedSecsRaisesGp : Obligations.LockedSecsRaisesGp := fun _ o hb hlock =>
  exec_of_cause (.secsLocked o hb hlock)

/-- Settles O25. -/
theorem targetAsSecsRefused : Obligations.TargetAsSecsRefused := fun _ o hb heq =>
  exec_of_cause (.targetIsSecs o hb heq)

/-- Settles O28. -/
theorem linaddrOutsideEnclaveStops : Obligations.LinaddrOutsideEnclaveStops := fun _ o hb =>
  ⟨fun hlo => exec_of_cause (.linaddrBelow o hb hlo),
    fun hlo hov => exec_of_cause (.rangeOverflow o hb hlo hov),
    fun hfit hhi => exec_of_cause (.linaddrPast o hb hfit hhi)⟩

/-- Settles O30. -/
theorem tokenOverflowRefused : Obligations.TokenOverflowRefused := fun _ o hb hdue hov =>
  exec_of_cause (.tokenOverflow o hb hdue hov)

end Sys2Proof.Machine
end

section
/-!
PROOF. Encoding, decoding and the step (30_encoding.md sections 1 to 4). The decoder answers an
instruction exactly for bytes that begin with its encoding; a step runs what it answers.
-/

namespace Sys2Proof

theorem decode_of_decodeBare (m : Mode) {bs : List Byte} {i : Instr} {rest : List Byte}
    (h : decodeBare bs = some (i, rest)) : decode m bs = .instr i rest := by
  cases bs with
  | nil => cases h
  | cons b bs => rw [decode_cons, h]

/-- The decoder answers an instruction exactly for its encoding and what follows it. -/
theorem decode_eq_instr_iff (m : Mode) (bs : List Byte) (i : Instr) (rest : List Byte) :
    decode m bs = .instr i rest ↔ bs = encode i ++ rest := by
  rw [← decodeBare_eq_some]
  exact ⟨decode_eq_instr_imp m bs i rest, decode_of_decodeBare m⟩

theorem decode_encode (m : Mode) (i : Instr) (rest : List Byte) :
    decode m (encode i ++ rest) = .instr i rest := (decode_eq_instr_iff m _ i rest).2 rfl

/-- Settles O1. -/
theorem tableWordDecodes : Obligations.TableWordDecodes := by
  unfold Obligations.TableWordDecodes
  decide

/-- Settles O2. -/
theorem encodeThenDecode : Obligations.EncodeThenDecode := fun m i rest _ => decode_encode m i rest

/-- Settles O3. -/
theorem decodedBytesAreEncoding : Obligations.DecodedBytesAreEncoding := fun m bs i rest =>
  (decode_eq_instr_iff m bs i rest).1

/-- No bare form begins with one of R66's bytes, since `ENCLS` does not. -/
theorem decodeBare_of_isPrefix {m : Mode} {b : Byte} (bs : List Byte) (h : isPrefix m b = true) :
    decodeBare (b :: bs) = none := by
  refine Option.eq_none_iff_forall_not_mem.2 fun ⟨i, rest⟩ hbare => ?_
  have heq := (decodeBare_eq_some _ _ _).1 hbare
  cases i with
  | enclsEaug =>
    have hb : b = 0x0F#8 := (List.cons.inj heq).1
    rw [hb, isPrefix_opcode] at h
    cases h

/-- One of R66's bytes before what is an instruction or a form behind them gives such a form. -/
theorem decode_cons_of_isPrefix {m : Mode} {b : Byte} {bs : List Byte} (h : isPrefix m b = true)
    (hbs : decode m bs ≠ .otherBytes) : decode m (b :: bs) = .prefixedForm := by
  rw [decode_cons, decodeBare_of_isPrefix bs h]
  cases hd : decode m bs with
  | otherBytes => exact absurd hd hbs
  | instr _ _ => exact if_pos h
  | prefixedForm => exact if_pos h

/-- Settles O4, by induction on the bytes before the encoding. -/
theorem prefixedEncodingIsPrefixedForm : Obligations.PrefixedEncodingIsPrefixedForm := by
  intro m ps i rest hne hps
  induction ps with
  | nil => exact absurd rfl hne
  | cons p ps ih =>
    have hrest : decode m (ps ++ encode i ++ rest) ≠ .otherBytes := by
      cases ps with
      | nil =>
        rw [List.nil_append, decode_encode]
        exact nofun
      | cons q qs =>
        rw [ih (List.cons_ne_nil q qs) fun b hb => hps b (List.mem_cons_of_mem p hb)]
        exact nofun
    exact decode_cons_of_isPrefix (hps p List.mem_cons_self) hrest

end Sys2Proof

namespace Sys2Proof.Machine

variable {s : State}

/-- Settles O5. -/
theorem stepRunsDecoded : Obligations.StepRunsDecoded := by
  intro s i rest hs hd _
  rw [step, if_neg (Bool.eq_false_iff.1 hs), hd]

/-- Settles O6. -/
theorem stepRefusesOtherBytes : Obligations.StepRefusesOtherBytes := by
  constructor
  · intro s hs hd
    rw [step, if_neg (Bool.eq_false_iff.1 hs), hd]
  · intro s hs hd
    rw [step, if_neg (Bool.eq_false_iff.1 hs), hd]

theorem step_of_vmExited (h : s.vmExited = true) : step s = .refused .afterVmExit := by
  rw [step, if_pos h]

/-- Settles O7. -/
theorem noStepAfterVmExit : Obligations.NoStepAfterVmExit :=
  ⟨fun _ _ _ => step_of_vmExited rfl, fun _ => step_of_vmExited⟩

/-! ### The word placed where the machine fetches -/

theorem State.setEax_eax (s : State) (v : BitVec 32) : (s.setEax v).eax = v := by
  have hmask : (0xFFFFFFFF00000000#64).setWidth 32 = 0#32 := rfl
  rw [State.eax, State.setEax_rax, BitVec.setWidth_or, BitVec.setWidth_and, hmask,
    BitVec.and_zero, BitVec.zero_or, BitVec.setWidth_setWidth_of_le _ (by decide),
    BitVec.setWidth_eq]

/-- Placing the table's word stores the instruction's bytes and selects the leaf (R64). -/
theorem withFetchWord_eq (s : State) : s.withFetchWord 24 0x0F01CF =
    State.setEax { s with code := writeBytes s.code s.pc.toNat (encode .enclsEaug) } eaugLeaf := by
  have hbytes : tableBytes 24 0x0F01CF = encode .enclsEaug := by decide
  rw [State.withFetchWord, State.placeInstruction, tableWordDecodes.1, hbytes]

theorem fetch_withFetchWord (hcode : s.code.wf = true) :
    ∃ rest, (s.withFetchWord 24 0x0F01CF).fetch = encode .enclsEaug ++ rest := by
  rw [withFetchWord_eq]
  exact ⟨_, readBytes_writeBytes s.code s.pc.toNat (encode .enclsEaug) 12 hcode⟩

/-- Settles O8. -/
theorem placedWordRuns : Obligations.PlacedWordRuns := by
  intro s hcode hs
  obtain ⟨rest, hfetch⟩ := fetch_withFetchWord hcode
  have hdecode := (decode_eq_instr_iff (s.withFetchWord 24 0x0F01CF).cfg.mode _ _ _).2 hfetch
  have hmark : (s.withFetchWord 24 0x0F01CF).vmExited = false := by rwa [withFetchWord_eq]
  refine ⟨stepRunsDecoded _ _ _ hmark hdecode rfl, ?_⟩
  rw [withFetchWord_eq]
  exact ⟨State.setEax_eax _ _, rfl⟩

end Sys2Proof.Machine
end

section
/-!
PROOF. The store, and what the leaf leaves where it succeeds (20_memory.md section 4, 40_eaug.md
section 5, 10_state.md section 9): the whole next state, and from it the page's contents, its EPCM
entry and the frame.
-/

namespace Sys2Proof.Machine

variable {s : State} {o : EaugOperands}

/-! ### The store -/

/-- A stored number is read back, as far as its bytes hold it. -/
theorem readNat_writeNat (m : Memory) (a n v : Nat) (hm : m.wf = true) :
    readNat (writeNat m a n v) a n = v % 256 ^ n := by
  induction n generalizing m a v with
  | zero => simp only [readNat, pow_zero, Nat.mod_one]
  | succ n ih =>
    have hlow : readByte (writeNat m a (n + 1) v) a = BitVec.ofNat 8 v := by
      simpa using readByte_writeNat_inside m a (n + 1) v 0 hm (Nat.succ_pos n)
    rw [readNat, hlow, writeNat, ih _ _ _ (writeByte_wf m a _ hm), BitVec.toNat_ofNat,
      Nat.pow_succ' (m := 256), Nat.mod_mul]

/-- Settles O48. -/
theorem storeIsLittleEndian : Obligations.StoreIsLittleEndian := fun m a n v hm =>
  ⟨readNat_writeNat m a n v hm, fun i hi => readByte_writeNat_inside m a n v i hm hi,
    fun b hb => readByte_writeNat_of_outside m a n v b hm hb⟩

/-! ### The whole next state -/

/-- The token that is due, as a number (R93). -/
def EaugOperands.tokenValue (o : EaugOperands) (s : State) : Nat :=
  (o.pageinfo s).linaddr.toNat + 0x1000 + (if (s.secsAt o.pS).mode64bit then 1 else 0)

theorem token_eq_tokenValue (h : EaugSucceeds s o) (hdue : TokenDue s o) :
    (shadowStackToken (o.pageinfo s).linaddr (s.secsAt o.pS)).toNat = o.tokenValue s := by
  obtain ⟨_, _, _, halign⟩ := secsAddressed_of_succeeds h
  exact shadowStackToken_toNat _ _ halign (h.2 hdue)

theorem tokenValue_lt (h : EaugSucceeds s o) (hdue : TokenDue s o) :
    o.tokenValue s < 256 ^ 8 := by
  rw [← token_eq_tokenValue h hdue]
  exact BitVec.isLt _

/-- Memory after the writes, with the token as a number. -/
theorem eaugMemory_plan (h : EaugSucceeds s o) : eaugMemory s (o.plan s) =
    if TokenDue s o then writeNat (fillZero s.mem o.pT 4096) (o.pT + 0xFF8) 8 (o.tokenValue s)
    else fillZero s.mem o.pT 4096 := by
  by_cases hdue : TokenDue s o
  · rw [if_pos hdue, ← token_eq_tokenValue h hdue]
    exact if_pos ((needsToken_iff _ _).2 hdue)
  · rw [if_neg hdue]
    exact if_neg fun hneeds => hdue ((needsToken_iff _ _).1 hneeds)

/-- Settles O31. -/
theorem eaugCompletes : Obligations.EaugCompletes := by
  intro s o h
  have hmem := eaugMemory_plan h
  calc exec .enclsEaug s
      = .next (eaugCommit s (o.plan s)) := execEnclsEaug_of h
    _ = .next { eaugCommit s (o.plan s) with mem := eaugMemory s (o.plan s) } := rfl
    _ = _ := by rw [hmem]; rfl

/-! ### When a step succeeds -/

/-- The first bytes read are those read alone. -/
theorem readBytes_add (m : Memory) (a k n : Nat) :
    readBytes m a (k + n) = readBytes m a k ++ readBytes m (a + k) n := by
  induction k generalizing a with
  | zero => simp [readBytes]
  | succ k ih =>
    rw [Nat.succ_add, readBytes, readBytes, ih, List.cons_append, Nat.succ_add_eq_add_succ]

theorem readBytes_length (m : Memory) (a n : Nat) : (readBytes m a n).length = n := by
  induction n generalizing a with
  | zero => rfl
  | succ n ih => rw [readBytes, List.length_cons, ih]

/-- The fetched bytes decode to the instruction where the first three are its encoding (R66). -/
theorem decode_fetch_iff (s : State) :
    (∃ rest, decode s.cfg.mode s.fetch = .instr .enclsEaug rest) ↔
      readBytes s.code s.pc.toNat 3 = encode .enclsEaug := by
  have hfetch : s.fetch = readBytes s.code s.pc.toNat 3 ++ readBytes s.code (s.pc.toNat + 3) 12 :=
    readBytes_add s.code s.pc.toNat 3 12
  simp only [decode_eq_instr_iff, hfetch]
  constructor
  · rintro ⟨rest, heq⟩
    exact (List.append_inj heq (readBytes_length _ _ _)).1
  · exact fun heq => ⟨_, by rw [heq]⟩

/-- The leaf answers a next state without the mark of a VM exit exactly where the premises of
success hold. -/
theorem exec_succeeds_iff (hs : s.vmExited = false) :
    (∃ t, exec .enclsEaug s = .next t ∧ t.vmExited = false) ↔ ∃ o, EaugSucceeds s o := by
  constructor
  · rintro ⟨t, h, ht⟩
    rcases exec_eq_next_cases h with ⟨o, ho, _⟩ | ⟨_, _, _, _, rfl⟩
    · exact ⟨o, ho⟩
    · cases ht
  · rintro ⟨o, ho⟩
    exact ⟨_, execEnclsEaug_of ho, hs⟩

/-- Settles O32. -/
theorem stepSucceedsExactlyWhen : Obligations.StepSucceedsExactlyWhen := by
  intro s hs
  refine Iff.trans ?_ (and_congr (decode_fetch_iff s) (exec_succeeds_iff hs))
  constructor
  · rintro ⟨t, h, ht⟩
    obtain ⟨_, i, rest, hd, h⟩ := (step_eq_next s t).1 h
    cases i with
    | enclsEaug => exact ⟨⟨rest, hd⟩, t, h, ht⟩
  · rintro ⟨⟨rest, hd⟩, t, h, ht⟩
    exact ⟨t, (step_eq_next s t).2 ⟨hs, .enclsEaug, rest, hd, h⟩, ht⟩

/-! ### The target page and its EPCM entry -/

/-- Settles O33. -/
theorem targetPageZeroed : Obligations.TargetPageZeroed := fun _ _ hmem h =>
  ⟨_, execEnclsEaug_of h, fun _ hi => byteAt_eaugCommit_target hmem (by omega) (.inl hi),
    fun hdue _ hi => byteAt_eaugCommit_target hmem hi (.inr hdue)⟩

/-- Settles O34: the token is the last store to the page, so it is read back. -/
theorem tokenStored : Obligations.TokenStored := by
  intro s o hmem h hdue
  have hzeroed : Memory.wf (fillZero s.mem o.pT 4096) = true := fillZero_wf _ _ _ hmem
  have hstored : (eaugCommit s (o.plan s)).mem =
      writeNat (fillZero s.mem o.pT 4096) (o.pT + 0xFF8) 8 (o.tokenValue s) := by
    rw [eaugCommit_mem, eaugMemory_plan h, if_pos hdue]
  refine ⟨_, execEnclsEaug_of h, ?_, fun i hi => ?_⟩
  · rw [hstored, readNat_writeNat _ _ _ _ hzeroed, Nat.mod_eq_of_lt (tokenValue_lt h hdue)]
    rfl
  · rw [State.byteAt, hstored, readByte_writeNat_inside _ _ _ _ _ hzeroed hi]
    rfl

theorem epcmAt_eaugCommit_target (hwf : Table.wf unlistedEpcm s.epcm = true) :
    (eaugCommit s (o.plan s)).epcmAt o.pT = newEpcmEntry (o.plan s) := by
  rw [epcmAt_eaugCommit_plan _ hwf, if_pos rfl]

theorem epcmAt_eaugCommit_of_frame_ne (hwf : Table.wf unlistedEpcm s.epcm = true) {q : Nat}
    (hq : frameOf q ≠ frameOf o.pT) :
    (eaugCommit s (o.plan s)).epcmAt q = s.epcmAt q := by
  rw [epcmAt_eaugCommit_plan _ hwf, if_neg hq]

/-- Settles O35. -/
theorem epcmEntryWritten : Obligations.EpcmEntryWritten := by
  intro s o hwf h
  obtain ⟨hr, hw, hx, hpt⟩ := attrs_of_settled (attributesSettled_of_succeeds h)
  refine ⟨_, execEnclsEaug_of h, ?_, hpt, fun q => epcmAt_eaugCommit_of_frame_ne hwf⟩
  rw [epcmAt_eaugCommit_target hwf, newEpcmEntry, EaugOperands.plan_attrs, hr, hw, hx]
  rfl

/-- The leaf reads `EAX[6]` in the test of a caller's SECINFO only (R84), so without one success
carries over to any value of it. -/
theorem eaugSucceeds_withLeaf12Eax6 (b : Bool) (h : EaugSucceeds s o)
    (hdefault : (o.pageinfo s).secinfo = 0#64) :
    EaugSucceeds { s with cfg := { s.cfg with cpuid := { s.cfg.cpuid with leaf12Eax6 := b } } }
      o := by
  obtain ⟨⟨⟨⟨⟨⟨⟨⟨⟨hread, hattrs, _⟩, hCet⟩, hSecsLock⟩, hDistinct⟩, hValid⟩, hInit⟩, hRange⟩,
    hEnds⟩, hToken⟩ := h
  exact ⟨⟨⟨⟨⟨⟨⟨⟨⟨hread, hattrs, fun hgiven => absurd hdefault hgiven⟩, hCet⟩, hSecsLock⟩,
    hDistinct⟩, hValid⟩, hInit⟩, hRange⟩, hEnds⟩, hToken⟩

theorem epcmAt_eaugCommit_target_of_default (hwf : Table.wf unlistedEpcm s.epcm = true)
    (h : EaugSucceeds s o) (hdefault : (o.pageinfo s).secinfo = 0#64) :
    ((eaugCommit s (o.plan s)).epcmAt o.pT).r = true ∧
      ((eaugCommit s (o.plan s)).epcmAt o.pT).w = true ∧
      ((eaugCommit s (o.plan s)).epcmAt o.pT).x = false ∧
      ((eaugCommit s (o.plan s)).epcmAt o.pT).pt = .reg := by
  obtain ⟨_, hattrs, _⟩ := attributesSettled_of_succeeds h
  rw [epcmAt_eaugCommit_target hwf, newEpcmEntry, EaugOperands.plan_attrs, hattrs hdefault]
  exact ⟨rfl, rfl, rfl, rfl⟩

/-- Settles O36. -/
theorem defaultAttributesGiven : Obligations.DefaultAttributesGiven := fun _ _ b hwf h hdefault =>
  have hb := eaugSucceeds_withLeaf12Eax6 b h hdefault
  ⟨_, execEnclsEaug_of hb, epcmAt_eaugCommit_target_of_default hwf hb hdefault⟩

/-! ### The frame -/

theorem sameInputs_eaugCommit (s : State) (p : EaugPlan) : SameInputs s (eaugCommit s p) :=
  ⟨rfl, rfl, rfl, rfl, rfl, rfl, rfl, rfl, rfl, rfl, rfl, rfl, rfl, rfl⟩

theorem sameInputs_deliverVmExit (s : State) (gpa : Nat) (gla : LinAddr) :
    SameInputs s (s.deliverVmExit gpa gla) :=
  ⟨rfl, rfl, rfl, rfl, rfl, rfl, rfl, rfl, rfl, rfl, rfl, rfl, rfl, rfl⟩

/-- Where `DS:RCX` translates for a write is the target. -/
theorem target_eq_of_succeeds (h : EaugSucceeds s o) {laT : LinAddr} {pT : Nat}
    (hlin : lin s (effectiveAddress s.cfg.mode s.rcx) 4096 = some laT)
    (htranslate : translate s.cfg laT .write = some pT) : o.pT = pT := by
  obtain ⟨⟨_, hlin', _⟩, htranslate', _⟩ := targetResolved_of_succeeds h
  cases hlin'.symm.trans hlin
  exact Option.some.inj (htranslate'.symm.trans htranslate)

/-- Settles O37. -/
theorem successFrame : Obligations.SuccessFrame := by
  intro s t laT pT hmem hwf _ h ht hlin htranslate
  rcases exec_eq_next_cases h with ⟨o, ho, rfl⟩ | ⟨_, _, _, _, rfl⟩
  · cases target_eq_of_succeeds ho hlin htranslate
    exact ⟨sameInputs_eaugCommit s _, rfl, fun a => byteAt_eaugCommit_outside hmem,
      fun q => epcmAt_eaugCommit_of_frame_ne hwf⟩
  · cases ht

/-- Settles O38: the bytes written lie in the target's frame, which is in the EPC. -/
theorem ordinaryMemoryUnchanged : Obligations.OrdinaryMemoryUnchanged := by
  intro s t hmem hc h a ha
  rcases exec_eq_next_cases h with ⟨o, ho, rfl⟩ | ⟨_, _, _, _, rfl⟩
  · obtain ⟨_, _, hin⟩ := targetResolved_of_succeeds ho
    refine byteAt_eaugCommit_of_frame_ne hmem hc ho fun hframe => ?_
    rw [inEpc_congr s.cfg a o.pT hframe, hin] at ha
    cases ha
  · rfl

/-- Settles O51. -/
theorem stepKeepsInputs : Obligations.StepKeepsInputs := fun s _ =>
  step_keeps (SameInputs s) (fun _ _ => sameInputs_eaugCommit s _) (sameInputs_deliverVmExit s)

end Sys2Proof.Machine
end

section
/-!
PROOF. What the leaf does not depend on (10_state.md section 1, 40_eaug.md sections 5 and 6). A
change of the state that the checks do not see, and that both ways to a next state carry over,
commutes with the leaf; this settles the registers. The target page's old contents are seen by no
check because PAGEINFO and SECINFO lie outside the EPC, each inside one frame; the same argument
lets a second run come as far as the first and find its page valid.
-/

namespace Sys2Proof.Machine

variable {s s' : State} {o : EaugOperands}

/-! ### Registers -/

/-- A change of the state that the checks do not see commutes with the leaf. -/
theorem exec_comm (g : State → State) (hchecks : eaugChecks (g s) = eaugChecks s)
    (hcommit : ∀ p, eaugCommit (g s) p = g (eaugCommit s p))
    (hexit : ∀ gpa gla, (g s).deliverVmExit gpa gla = g (s.deliverVmExit gpa gla)) :
    exec .enclsEaug (g s) = mapNext g (exec .enclsEaug s) := by
  rw [exec_enclsEaug, exec_enclsEaug]
  cases h : eaugChecks s with
  | ok p =>
    rw [execEnclsEaug_of_ok s p h, execEnclsEaug_of_ok _ p (hchecks.trans h), hcommit, mapNext]
  | error x =>
    rw [execEnclsEaug_of_error x h, execEnclsEaug_of_error x (hchecks.trans h)]
    cases x with
    | fault _ => rfl
    | vmExit gpa gla => exact congrArg Host.Outcome.next (hexit gpa gla)
    | refuse _ => rfl

/-- Settles O44: no check reads a register that the leaf does not name. -/
theorem otherRegistersNeitherReadNorWritten : Obligations.OtherRegistersNeitherReadNorWritten :=
  fun _ rs => exec_comm (fun t => { t with otherRegs := rs }) rfl (fun _ => rfl) fun _ _ => rfl

/-- The checks read `RAX` in the test of the leaf number only, which reads `EAX`. -/
theorem eaugChecks_withRax (v : Word) (hv : v.setWidth 32 = s.eax) :
    eaugChecks { s with rax := v } = eaugChecks s := by
  have heax : State.eax { s with rax := v } = s.eax := hv
  have hadmission : checkAdmission { s with rax := v } = checkAdmission s := by
    rw [checkAdmission, heax]
    rfl
  rw [eaugChecks, hadmission]
  rfl

theorem effectiveAddress_mode32_congr {r r' : Word} (h : r.setWidth 32 = r'.setWidth 32) :
    effectiveAddress .mode32 r = effectiveAddress .mode32 r' := by
  rw [effectiveAddress, effectiveAddress, h]

/-- The checks read `RBX` and `RCX` as effective addresses only. -/
theorem eaugChecks_withRbxRcx (b c : Word)
    (hb : effectiveAddress s.cfg.mode b = effectiveAddress s.cfg.mode s.rbx)
    (hc : effectiveAddress s.cfg.mode c = effectiveAddress s.cfg.mode s.rcx) :
    eaugChecks { s with rbx := b, rcx := c } = eaugChecks s := by
  have hpageinfo : pageinfoOperand { s with rbx := b, rcx := c } = pageinfoOperand s := by
    rw [pageinfoOperand, hb]
    rfl
  have htarget : targetOperand { s with rbx := b, rcx := c } = targetOperand s := by
    rw [targetOperand, hc]
    rfl
  rw [eaugChecks, hpageinfo, htarget]
  rfl

/-- Settles O45. -/
theorem upperHalvesIgnored : Obligations.UpperHalvesIgnored := by
  constructor
  · intro s v hv
    exact exec_comm (fun t => { t with rax := v }) (eaugChecks_withRax v hv) (fun _ => rfl)
      fun _ _ => rfl
  · intro s b c hm hb hc
    refine exec_comm (fun t => { t with rbx := b, rcx := c }) (eaugChecks_withRbxRcx b c ?_ ?_)
      (fun _ => rfl) fun _ _ => rfl
    · rw [hm, effectiveAddress_mode32_congr hb]
    · rw [hm, effectiveAddress_mode32_congr hc]

/-! ### What the leaf reads of memory -/

/-- An aligned block whose size divides the page's lies in one frame. -/
theorem frameOf_of_aligned {n p b : Nat} (hn : n ∣ 4096) (hp : p % n = 0) (hlo : p ≤ b)
    (hhi : b < p + n) : frameOf b = frameOf p := by
  obtain ⟨k, hk⟩ := hn
  obtain ⟨q, rfl⟩ := Nat.dvd_of_mod_eq_zero hp
  obtain ⟨r, rfl⟩ := Nat.exists_eq_add_of_le hlo
  have hr : r < n := by omega
  have hpos : 0 < n := by omega
  rw [frameOf, frameOf, hk, ← Nat.div_div_eq_div_mul, ← Nat.div_div_eq_div_mul,
    Nat.mul_add_div hpos, Nat.div_eq_of_lt hr, Nat.add_zero, Nat.mul_div_cancel_left q hpos]

/-- An aligned operand in ordinary memory has no byte in the frame of an EPC page. -/
theorem frameOf_ne_of_ordinary {c : Config} {la : LinAddr} {n p pT b : Nat}
    (hc : c.keepsPageOffsets = true) (hn : n ∣ 4096) (hla : la.toNat % n = 0)
    (ht : translate c la .read = some p) (hp : inEpc c p = false) (hT : inEpc c pT = true)
    (hlo : p ≤ b) (hhi : b < p + n) : frameOf b ≠ frameOf pT := by
  have halign : p % n = 0 := by
    rw [← Nat.mod_mod_of_dvd p hn, translate_mod c la .read p hc ht, Nat.mod_mod_of_dvd _ hn, hla]
  intro hframe
  rw [frameOf_of_aligned hn halign hlo hhi] at hframe
  rw [inEpc_congr c p pT hframe, hT] at hp
  cases hp

theorem read64_congr {a : Nat} (h : ∀ b, a ≤ b → b < a + 8 → s'.byteAt b = s.byteAt b) :
    s'.read64 a = s.read64 a := by
  rw [State.read64, State.read64, readNat_congr s'.mem s.mem a 8 h]

/-- A PAGEINFO is what its 32 bytes say, in a layout that fits. -/
theorem pageinfoAt_congr {p : Nat} (hcfg : s'.cfg = s.cfg) (hl : s.cfg.layout.pageinfoWf = true)
    (h : ∀ b, p ≤ b → b < p + 32 → s'.byteAt b = s.byteAt b) :
    pageinfoAt s' p = pageinfoAt s p := by
  simp only [Layout.pageinfoWf, Bool.and_eq_true, decide_eq_true_eq, and_assoc] at hl
  obtain ⟨hlinaddr, hsrcpge, hsecinfo, hsecs, _⟩ := hl
  have hfield : ∀ off ≤ 24, s'.read64 (p + off) = s.read64 (p + off) := fun off hoff =>
    read64_congr fun b hlo hhi => h b (by omega) (by omega)
  rw [pageinfoAt, pageinfoAt, hcfg, hfield _ hlinaddr, hfield _ hsrcpge, hfield _ hsecinfo,
    hfield _ hsecs]

/-- A SECINFO is what its 64 bytes say. -/
theorem secinfoAt_congr {p : Nat} (hcfg : s'.cfg = s.cfg)
    (h : ∀ b, p ≤ b → b < p + 64 → s'.byteAt b = s.byteAt b) :
    secinfoAt s' p = secinfoAt s p := by
  rw [secinfoAt, secinfoAt, hcfg, State.read512, State.read512,
    readNat_congr s'.mem s.mem p 64 h]

theorem pageinfoWf_of_wf {c : Config} (h : c.wf = true) : c.layout.pageinfoWf = true := by
  simp only [Config.wf, Layout.wf, Bool.and_eq_true] at h
  exact h.1.1.1

theorem keepsPageOffsets_of_wf {c : Config} (h : c.wf = true) : c.keepsPageOffsets = true := by
  simp only [Config.wf, Bool.and_eq_true] at h
  exact h.2

/-- The two states have the same bytes outside the target's frame. -/
def SameOutsideTarget (o : EaugOperands) (s s' : State) : Prop :=
  ∀ a : Nat, frameOf a ≠ frameOf o.pT → s'.byteAt a = s.byteAt a

theorem pageinfo_of_sameOutsideTarget (hc : s.cfg.wf = true) (h : PageinfoRead s o)
    (hcfg : s'.cfg = s.cfg) (hs : SameOutsideTarget o s s') : o.pageinfo s' = o.pageinfo s := by
  obtain ⟨⟨⟨⟨_, _, halign⟩, _⟩, _, hT⟩, ht, hp, _⟩ := h
  exact pageinfoAt_congr hcfg (pageinfoWf_of_wf hc) fun b hlo hhi =>
    hs b (frameOf_ne_of_ordinary (keepsPageOffsets_of_wf hc) (by decide) halign ht hp hT hlo hhi)

theorem secinfo_of_sameOutsideTarget (hc : s.cfg.wf = true) (h : EaugSucceeds s o)
    (hgiven : (o.pageinfo s).secinfo ≠ 0#64) (hcfg : s'.cfg = s.cfg)
    (hs : SameOutsideTarget o s s') : secinfoAt s' o.pSi = secinfoAt s o.pSi := by
  obtain ⟨_, _, hT⟩ := targetResolved_of_succeeds h
  obtain ⟨_, halign⟩ := (secinfoAddressed_of_succeeds h).2 hgiven
  obtain ⟨ht, hp⟩ := (secinfoRead_of_succeeds h).2 hgiven
  exact secinfoAt_congr hcfg fun b hlo hhi =>
    hs b (frameOf_ne_of_ordinary (keepsPageOffsets_of_wf hc) (by decide) halign ht hp hT hlo hhi)

/-- Memory, the EPCM and the instruction pointer bear on the checks up to R81 only by admission and
by what the PAGEINFO reads as. -/
theorem targetUnlocked_with {m : Memory} {e : Table EpcmEntry} {pc : Word}
    (h : TargetUnlocked s o) (hadmitted : Admitted { s with pc := pc })
    (hpi : o.pageinfo { s with mem := m, epcm := e, pc := pc } = o.pageinfo s) :
    TargetUnlocked { s with mem := m, epcm := e, pc := pc } o := by
  obtain ⟨⟨⟨⟨⟨⟨⟨⟨⟨⟨_, hcpl⟩, hPi⟩, hT⟩, hTarget⟩, hp, hin, hwide⟩, hSi⟩, hS⟩, hSrc⟩, hSecs⟩,
    hLock⟩ := h
  rw [← hpi] at hwide hSi hS hSrc
  exact ⟨⟨⟨⟨⟨⟨⟨⟨⟨⟨hadmitted, hcpl⟩, hPi⟩, hT⟩, hTarget⟩, hp, hin, hwide⟩, hSi⟩, hS⟩, hSrc⟩,
    hSecs⟩, hLock⟩

/-! ### The target page's old contents -/

/-- Success carries over to a memory that differs on the target's frame only. -/
theorem eaugSucceeds_withMem {m : Memory} (hc : s.cfg.wf = true) (h : EaugSucceeds s o)
    (hs : SameOutsideTarget o s { s with mem := m }) : EaugSucceeds { s with mem := m } o := by
  have hpi : o.pageinfo { s with mem := m } = o.pageinfo s :=
    pageinfo_of_sameOutsideTarget hc (pageinfoRead_of_succeeds h) rfl hs
  have hsi : (o.pageinfo s).secinfo ≠ 0#64 →
      secinfoAt { s with mem := m } o.pSi = secinfoAt s o.pSi :=
    fun hz => secinfo_of_sameOutsideTarget hc h hz rfl hs
  have hunlocked : TargetUnlocked { s with mem := m } o :=
    targetUnlocked_with (targetUnlocked_of_succeeds h) (admitted_of_succeeds h) hpi
  obtain ⟨⟨⟨⟨⟨⟨⟨⟨⟨⟨⟨_, hFree⟩, hSi⟩, hdefault, hgiven⟩, hCet⟩, hSecsLock⟩, hDistinct⟩, hValid⟩,
    hInit⟩, hRange⟩, hEnds⟩, hToken⟩ := h
  rw [← hpi] at hsi hSi hdefault hgiven hRange hEnds hToken
  refine ⟨⟨⟨⟨⟨⟨⟨⟨⟨⟨⟨hunlocked, hFree⟩, hSi⟩, hdefault, fun hz => ?_⟩, hCet⟩, hSecsLock⟩,
    hDistinct⟩, hValid⟩, hInit⟩, hRange⟩, hEnds⟩, hToken⟩
  rw [hsi hz]
  exact hgiven hz

/-- The bytes after the writes are the same for two memories that differ on the target's frame
only. -/
theorem byteAt_eaugCommit_withMem {m : Memory} (hmem : s.mem.wf = true) (hm : m.wf = true)
    (hc : s.cfg.keepsPageOffsets = true) (h : EaugSucceeds s o)
    (hs : SameOutsideTarget o s { s with mem := m }) (a : Nat) :
    (eaugCommit { s with mem := m } (o.plan s)).byteAt a = (eaugCommit s (o.plan s)).byteAt a := by
  calc readByte (eaugMemory { s with mem := m } (o.plan s)) a
      = _ := readByte_eaugMemory (o.plan s) a hm
    _ = readByte (eaugMemory s (o.plan s)) a := by
      rw [readByte_eaugMemory (o.plan s) a hmem]
      exact if_ctx_congr Iff.rfl (fun _ => rfl)
        fun ha => hs a (mt (frameOf_eq_target_iff hc h a).1 ha)

/-- Settles O46. -/
theorem oldPageContentsIrrelevant : Obligations.OldPageContentsIrrelevant := by
  intro s o m hmem hm hc h hs
  have hpi : o.pageinfo { s with mem := m } = o.pageinfo s :=
    pageinfo_of_sameOutsideTarget hc (pageinfoRead_of_succeeds h) rfl hs
  have hplan : o.plan { s with mem := m } = o.plan s :=
    congrArg (EaugPlan.mk o.pT o.pS · o.attrs) (congrArg Pageinfo.linaddr hpi)
  have hexec' := execEnclsEaug_of (eaugSucceeds_withMem hc h hs)
  rw [hplan] at hexec'
  exact ⟨_, _, execEnclsEaug_of h, hexec',
    byteAt_eaugCommit_withMem hmem hm (keepsPageOffsets_of_wf hc) h hs, rfl⟩

/-! ### A second run -/

/-- Settles O47: the second run finds the same operands, and its target valid. -/
theorem secondRunRaisesPf : Obligations.SecondRunRaisesPf := by
  intro s t o hmem hwf hc h hrun hpc
  cases (execEnclsEaug_of h).symm.trans hrun
  have hs : SameOutsideTarget o s (eaugCommit s (o.plan s)) := fun _ =>
    byteAt_eaugCommit_of_frame_ne hmem (keepsPageOffsets_of_wf hc) h
  obtain ⟨hleaf, havailable, _⟩ := admitted_of_succeeds h
  have hunlocked : TargetUnlocked (eaugCommit s (o.plan s)) o :=
    targetUnlocked_with (targetUnlocked_of_succeeds h) ⟨hleaf, havailable, hpc⟩
      (pageinfo_of_sameOutsideTarget hc (pageinfoRead_of_succeeds h) rfl hs)
  have hvalid : ((eaugCommit s (o.plan s)).epcmAt o.pT).valid = true := by
    rw [epcmAt_eaugCommit_target hwf, newEpcmEntry]
  exact validTargetRaisesPf _ o hunlocked hvalid

end Sys2Proof.Machine
end

section
/-!
PROOF. The instruction pointer after a step (10_state.md section 2), and what reset leaves
(10_state.md section 10).
-/

namespace Sys2Proof.Machine

/-- A leaf that comes as far as its target's lock was admitted. -/
theorem admitted_of_secsResolved {s : State} {o : EaugOperands} (h : SecsResolved s o) :
    Admitted s := by
  obtain ⟨⟨⟨⟨⟨⟨⟨⟨⟨hadmitted, _⟩, _⟩, _⟩, _⟩, _⟩, _⟩, _⟩, _⟩, _⟩ := h
  exact hadmitted

/-- Settles O53: both ways to a next state are admitted, so the instruction pointer has room. -/
theorem stepKeepsPcInRange : Obligations.StepKeepsPcInRange := by
  intro s t hstep
  obtain ⟨hs, i, _, _, h⟩ := (step_eq_next s t).1 hstep
  cases i with
  | enclsEaug =>
    rcases exec_eq_next_cases h with ⟨o, ho, rfl⟩ | ⟨o, hb, _, _, rfl⟩
    · have hadmitted := admitted_of_succeeds ho
      have hmoved := nextPc_toNat hadmitted
      refine ⟨?_, fun _ => hmoved, fun hmark => ?_⟩
      · rw [State.pcFits, eaugCommit_pc, hmoved]
        exact hadmitted.2.2
      · rw [eaugCommit_vmExited, hs] at hmark
        cases hmark
    · obtain ⟨_, _, hroom⟩ := admitted_of_secsResolved hb
      exact ⟨(Nat.le_add_right _ _).trans_lt hroom, nofun, fun _ => rfl⟩

theorem reset_epcmAt_valid (p : Nat) : (State.reset.epcmAt p).valid = false := rfl

/-- Settles O49. -/
theorem resetLeaves : Obligations.ResetLeaves :=
  ⟨rfl, rfl, rfl, rfl, rfl, rfl, rfl, rfl, rfl, rfl, rfl, rfl, rfl, rfl, fun _ => rfl,
    reset_epcmAt_valid, fun _ => rfl, fun _ => rfl⟩

/-- Settles O50: reset has no valid page, so none is pending. -/
theorem resetMeetsInvariants : Obligations.ResetMeetsInvariants := by
  have hnone : ∀ p, ¬ (State.reset.epcmAt p).valid = true := fun p =>
    Bool.eq_false_iff.1 (reset_epcmAt_valid p)
  have hcfg : State.reset.cfg.wf = true := by decide +kernel
  have hpc : State.reset.pcFits := by
    rw [State.pcFits]
    decide
  exact ⟨rfl, hcfg, hpc, fun p hv => absurd hv (hnone p), fun p hv => absurd hv (hnone p)⟩

end Sys2Proof.Machine
end
